-- ==== Sys2Proof/Word.lean ====
section
/-! DEFINITION. The word types of the block: bytes, slot words, register contents, the scaler's numbers. -/

namespace Sys2Proof

/-- A byte: 8 bits, unsigned (00_scope.md section 5). -/
abbrev Byte := BitVec 8

/-- A slot word, and the 16-bit view of a header: 16 bits, unsigned (00_scope.md section 5). -/
abbrev SlotWord := BitVec 16

/-- A fades count: 16 bits, unsigned (R52, R91). -/
abbrev Fades := BitVec 16

/-- The contents of a RAW register: RAW_WIDTH = 11 bits, unsigned (R10, D36). -/
abbrev RawVal := BitVec 11

/-- A raw-side bound of the scaler: IN_WIDTH = 16 bits, two's complement (R19, D18). -/
abbrev InVal := BitVec 16

/-- The encoding `t` of a value of the output type T: T_WIDTH = 32 bits, two's complement, standing for
`t / 2^T_FRAC` (00_scope.md section 5 "Numbers", R20, D18). -/
abbrev TVal := BitVec 32

/-- A channel index 0..11 (R11): "index is always in range". -/
abbrev Channel := Fin 12

end Sys2Proof
end

