-- ==== Sys2Proof/Config.lean ====
section
/-! DEFINITION. What an instance of the block fixes: the parameters of 00_scope.md section 4. No value of the
block is left open by the spec (R153), so there is no free value here. -/

namespace Sys2Proof

/-- The bit layout of a slot (R2). As a bit, Compact is 0 and Extended is 1 (R15). -/
inductive Format where
  | compact
  | extended
deriving DecidableEq, Repr

/-- One row `(id, fmt)` of SYSTEM_TABLE (R25). -/
structure SystemRow where
  id  : Byte
  fmt : Format
deriving DecidableEq, Repr

/-- One row `(system, internal, pulses)` of BIND_TABLE (R133). No rule of the block reads `pulses`. -/
structure BindRow where
  system   : Byte
  internal : Bool
  pulses   : Nat
deriving DecidableEq, Repr

/-- The parameters of an instance. State holds one as its constant field `cfg`, so that a statement about every
state is a statement about every instance (log 6). -/
structure Config where
  /-- SYSTEM_TABLE: exactly four rows (R25, D12: OPEN). -/
  systemTable : Vector SystemRow 4
  /-- BIND_TABLE: eight rows, indexed by the bind-mode index (R133, D13: OPEN). -/
  bindTable   : Vector BindRow 8
  /-- T_FRAC: the fraction bits of T, 0 or 16 (00_scope.md section 4, D18: OPEN). -/
  tFrac       : Nat
  /-- NATIVE_LE: how the two bytes of a slot form the word before the swap (R3, D4). -/
  nativeLE    : Bool
  /-- RST_SYSTEM, a construction argument (R160, D30). -/
  rstSystem   : Byte
  /-- RST_INTERNAL, a construction argument (R160, D30). -/
  rstInternal : Bool
  /-- RST_SWAP, a construction argument (R160, D30). -/
  rstSwap     : Bool
deriving DecidableEq, Repr

/-- The spec's test configuration TC0 (95_test_vectors.md section 0): integral T. Its two tables are the defaults
that R25 and R133 offer and mark as general knowledge. PRESUMED (log 7); NATIVE_LE = true is the spec's D4 (log 10);
T_FRAC = 0 and the construction arguments: DESIGN CHOICE (log 8, log 9). Unsafe. -/
def Config.tc0 : Config where
  systemTable := #v[⟨0x01#8, .compact⟩, ⟨0x12#8, .extended⟩, ⟨0xA2#8, .extended⟩, ⟨0xB2#8, .extended⟩]
  bindTable   := #v[⟨0x01#8, true, 3⟩, ⟨0x01#8, false, 4⟩, ⟨0x12#8, true, 5⟩, ⟨0x12#8, false, 6⟩,
                    ⟨0xA2#8, true, 7⟩, ⟨0xA2#8, false, 8⟩, ⟨0xB2#8, true, 9⟩, ⟨0xB2#8, false, 10⟩]
  tFrac       := 0
  nativeLE    := true
  rstSystem   := 0x01#8
  rstInternal := true
  rstSwap     := true

/-- The spec's test configuration TC1 (95_test_vectors.md section 0): TC0 with T a Q16.16 number. -/
def Config.tc1 : Config := { Config.tc0 with tFrac := 16 }

end Sys2Proof
end

