-- ==== Sys2Proof/Machine/Systems.lean ====
section
/-! DEFINITION. SYSTEM_TABLE as the rules read it: `known` and `fmtOf` (R25). -/

namespace Sys2Proof.Machine

/-- `fmtOf(s)` where `known(s)`, and `none` where it is undefined (R25): the Format of the row whose id is `s`. -/
def fmtOf (cfg : Config) (s : Byte) : Option Format :=
  (cfg.systemTable.toList.find? (fun row => row.id == s)).map (fun row => row.fmt)

/-- `known(s)`: `s` is the id of a row of SYSTEM_TABLE (R25). -/
def known (cfg : Config) (s : Byte) : Bool := (fmtOf cfg s).isSome

end Sys2Proof.Machine
end

