-- ==== Sys2Proof/Syntax.lean ====
section
/-! DEFINITION. The instructions: one constructor for each row of spec/opcode_table.json. -/

namespace Sys2Proof

/-- One `(channelId, rawValue)` pair of a frame (R91, R92). -/
structure Sample where
  id  : Channel
  val : RawVal
deriving DecidableEq, Repr

/-- The rows of the opcode table: twelve operations, one pseudo-operation, four reserved command codes and the
five forms of a 16-bit wire word.

A wire form is no operation of the host: it is a word of the frame that the transport delivers (R34), and running it
is the arrival of its two bytes at the tail of RX (log 12). -/
inductive Instr where
  /-- SCFG, code 0x1 (R70). -/
  | scfg (inMin inMax : InVal) (outMin outMax : TVal)
  /-- SCALE, code 0x2 (R72). -/
  | scale (raw : RawVal)
  /-- DESCALE, code 0x3 (R73). -/
  | descale (value : TVal)
  /-- DEC, code 0x4 (R90). `bytes` is the buffer IN (R31). -/
  | dec (fmt : Format) (internal swap : Bool) (bytes : List Byte)
  /-- ENC, code 0x5 (R92). -/
  | enc (fmt : Format) (internal swap : Bool) (fades : Fades) (system : Byte) (samples : List Sample)
  /-- ENCP, code 0x6 (R94). -/
  | encp (fades : Fades)
  /-- ENCA, code 0x7 (R95). -/
  | enca (fades : Fades)
  /-- POLL, code 0x8 (R111). -/
  | poll
  /-- CHRD, code 0x9 (R77). -/
  | chrd (ch : Channel)
  /-- CHWR, code 0xA (R78). -/
  | chwr (ch : Channel) (value : TVal)
  /-- SETSYS, code 0xB (R130). -/
  | setsys (sys : Byte) (internal : Bool)
  /-- SETOPT, code 0xC (R131). -/
  | setopt (swap procall : Bool)
  /-- SETMODE, a pseudo-operation over SETSYS with no code of its own (R64, R132). -/
  | setmode (m : Fin 8)
  /-- RESERVED.0, the reserved code 0x0 (R62). -/
  | reserved0
  /-- RESERVED.D, the reserved code 0xD (R62). -/
  | reservedD
  /-- RESERVED.E, the reserved code 0xE (R62). -/
  | reservedE
  /-- RESERVED.F, the reserved code 0xF (R62). -/
  | reservedF
  /-- HDR.INT: byte 0 is fades, byte 1 is system (R51). -/
  | hdrInt (fades system : Byte)
  /-- HDR.EXT: one big-endian fades count (R52). -/
  | hdrExt (fades : Fades)
  /-- SLOT.C: bits 15:10 channelId, bits 9:0 rawValue (R53). -/
  | slotC (channelId : BitVec 6) (rawValue : BitVec 10)
  /-- SLOT.X: bit 15 in neither field, bits 14:11 channelId, bits 10:0 rawValue (R54). -/
  | slotX (bit15 : BitVec 1) (channelId : BitVec 4) (rawValue : BitVec 11)
  /-- SLOT.FILL: the filler 0xFFFF (R59). -/
  | slotFill
deriving DecidableEq, Repr

/-- Which row a 16-bit wire word is read by. Nothing in the frame says it (R50, R60), so it stands beside the word. -/
inductive WireKind where
  | hdrInt
  | hdrExt
  | slotC
  | slotX
deriving DecidableEq, Repr

/-- An instruction as it is presented to the block: the byte image of the command port and the operand ports
(R61, log 1), or the two bytes of a wire word in wire order with the row it is read by (log 12). -/
inductive Encoded where
  | command (ports : List Byte)
  | wire (kind : WireKind) (b0 b1 : Byte)
deriving DecidableEq, Repr

/-- What an agent outside the block does next (00_scope.md section 5 "Agents"): an instruction is presented, or the
transport appends a run of bytes to RX (R34). -/
inductive Input where
  | present (e : Encoded)
  | receive (bytes : List Byte)
deriving DecidableEq, Repr

end Sys2Proof
end

