-- ==== Sys2Proof/WellFormed.lean ====
section
/-! DEFINITION. Which instructions the ports can express (R62), and which parameters make an instance
(00_scope.md section 4). -/

namespace Sys2Proof

/-- The instruction can be expressed on the ports as typed (R62), and a wire word is named by the row that fits it best:
the word 0xFFFF is SLOT.FILL, not a slot with every bit set (R59). -/
def Instr.wf : Instr → Bool
  | .scfg _ _ _ _ => true
  | .scale _ => true
  | .descale _ => true
  | .dec _ _ _ bytes => decide (bytes.length ≤ 16)
  | .enc _ _ _ _ _ samples => decide (samples.length ≤ 7)
  | .encp _ => true
  | .enca _ => true
  | .poll => true
  | .chrd _ => true
  | .chwr _ _ => true
  | .setsys _ _ => true
  | .setopt _ _ => true
  | .setmode _ => true
  | .reserved0 => true
  | .reservedD => true
  | .reservedE => true
  | .reservedF => true
  | .hdrInt _ _ => true
  | .hdrExt _ => true
  | .slotC c v => !(c == 63#6 && v == 1023#10)
  | .slotX x c v => !(x == 1#1 && c == 15#4 && v == 2047#11)
  | .slotFill => true

/-- The parameters are those of an instance: the ids of SYSTEM_TABLE are pairwise distinct (R25), RST_SYSTEM is known
(R160), every row of BIND_TABLE names a known system and 3..10 pulses (R133), and T_FRAC is 0 or 16
(00_scope.md section 4). -/
def Config.wf (cfg : Config) : Bool :=
  decide (cfg.systemTable.toList.map (fun row => row.id)).Nodup
  && Machine.known cfg cfg.rstSystem
  && cfg.bindTable.toList.all (fun row => Machine.known cfg row.system && decide (3 ≤ row.pulses) && decide (row.pulses ≤ 10))
  && (cfg.tFrac == 0 || cfg.tFrac == 16)

end Sys2Proof
end

