-- ==== Sys2Proof/Decode.lean ====
section
/-! DEFINITION. Byte order, the decoder from presented bytes to instructions (total, rejecting by name), and the
encoder written from the same tables.

The command code is R61's. The byte image of the ports is the model's own (log 1): byte 0 is the command code, then the
operands of that operation in the order of R63, each in whole bytes, the low byte first; a bit is a byte 0 or 1, a Format
is its bit (R15), a list is its length in one byte and then its elements. -/

namespace Sys2Proof

/-! ## Byte order (R3) -/

/-- `be16(b0, b1) = (b0 << 8) | b1` (R3): `b0` is the byte at the lower offset. -/
def be16 (b0 b1 : Byte) : SlotWord := (b0.setWidth 16 <<< 8) ||| b1.setWidth 16

/-- `le16(b0, b1) = (b1 << 8) | b0` (R3). -/
def le16 (b0 b1 : Byte) : SlotWord := (b1.setWidth 16 <<< 8) ||| b0.setWidth 16

/-- `w[7:0]`. -/
def loByte (w : SlotWord) : Byte := w.extractLsb' 0 8

/-- `w[15:8]`. -/
def hiByte (w : SlotWord) : Byte := w.extractLsb' 8 8

/-- A T value from its four bytes, low byte first (log 1). -/
def le32 (b0 b1 b2 b3 : Byte) : TVal := (b3 ++ b2) ++ (b1 ++ b0)

/-- The four bytes of a T value, low byte first (log 1). -/
def bytes32 (t : TVal) : List Byte :=
  [t.extractLsb' 0 8, t.extractLsb' 8 8, t.extractLsb' 16 8, t.extractLsb' 24 8]

/-! ## Operands of a command image -/

/-- Why a presented image is no command. All of these are calls that R62 says a model must refuse. -/
inductive DecodeError where
  /-- The image has no byte at all. -/
  | emptyImage
  /-- Byte 0 is no 4-bit command code. -/
  | codeOutOfRange
  /-- The image ends inside an operand. -/
  | truncated
  /-- A 1-bit operand is neither 0 nor 1. -/
  | bitOutOfRange
  /-- A raw value above 2047. -/
  | rawOutOfRange
  /-- A channel index above 11. -/
  | channelOutOfRange
  /-- More than 7 samples. -/
  | tooManySamples
  /-- More than 16 bytes in IN. -/
  | inTooLong
deriving DecidableEq, Repr

/-- A 1-bit operand. -/
def decodeBit (b : Byte) : Except DecodeError Bool :=
  if b = 0#8 then .ok false else if b = 1#8 then .ok true else .error .bitOutOfRange

/-- A Format operand, by its bit (R15). -/
def decodeFormat (b : Byte) : Except DecodeError Format :=
  if b = 0#8 then .ok .compact else if b = 1#8 then .ok .extended else .error .bitOutOfRange

/-- An 11-bit raw operand (R61, R62). -/
def decodeRaw (b0 b1 : Byte) : Except DecodeError RawVal :=
  if (le16 b0 b1).toNat < 2048 then .ok ((le16 b0 b1).setWidth 11) else .error .rawOutOfRange

/-- A channel index operand (R61, R62). -/
def decodeChannel (b : Byte) : Except DecodeError Channel :=
  if h : b.toNat < 12 then .ok ⟨b.toNat, h⟩ else .error .channelOutOfRange

/-- `n` samples, each a channel index and a raw value. -/
def decodeSamples : Nat → List Byte → Except DecodeError (List Sample × List Byte)
  | 0, rest => .ok ([], rest)
  | n + 1, c :: v0 :: v1 :: rest => do
      let id ← decodeChannel c
      let val ← decodeRaw v0 v1
      let (more, rest) ← decodeSamples n rest
      .ok (⟨id, val⟩ :: more, rest)
  | _ + 1, _ => .error .truncated

/-! ## The operations, one decoder each: the operand ports to the instruction and what the image holds beyond them -/

def decodeScfg : List Byte → Except DecodeError (Instr × List Byte)
  | a0 :: a1 :: b0 :: b1 :: c0 :: c1 :: c2 :: c3 :: d0 :: d1 :: d2 :: d3 :: rest =>
      .ok (.scfg (le16 a0 a1) (le16 b0 b1) (le32 c0 c1 c2 c3) (le32 d0 d1 d2 d3), rest)
  | _ => .error .truncated

def decodeScale : List Byte → Except DecodeError (Instr × List Byte)
  | r0 :: r1 :: rest => do .ok (.scale (← decodeRaw r0 r1), rest)
  | _ => .error .truncated

def decodeDescale : List Byte → Except DecodeError (Instr × List Byte)
  | t0 :: t1 :: t2 :: t3 :: rest => .ok (.descale (le32 t0 t1 t2 t3), rest)
  | _ => .error .truncated

def decodeDec : List Byte → Except DecodeError (Instr × List Byte)
  | f :: i :: w :: len :: rest => do
      let fmt ← decodeFormat f
      let internal ← decodeBit i
      let swap ← decodeBit w
      if 16 < len.toNat then .error .inTooLong
      else if rest.length < len.toNat then .error .truncated
      else .ok (.dec fmt internal swap (rest.take len.toNat), rest.drop len.toNat)
  | _ => .error .truncated

def decodeEnc : List Byte → Except DecodeError (Instr × List Byte)
  | f :: i :: w :: f0 :: f1 :: sys :: count :: rest => do
      let fmt ← decodeFormat f
      let internal ← decodeBit i
      let swap ← decodeBit w
      if 7 < count.toNat then .error .tooManySamples
      else
        let (samples, rest) ← decodeSamples count.toNat rest
        .ok (.enc fmt internal swap (le16 f0 f1) sys samples, rest)
  | _ => .error .truncated

def decodeEncp : List Byte → Except DecodeError (Instr × List Byte)
  | f0 :: f1 :: rest => .ok (.encp (le16 f0 f1), rest)
  | _ => .error .truncated

def decodeEnca : List Byte → Except DecodeError (Instr × List Byte)
  | f0 :: f1 :: rest => .ok (.enca (le16 f0 f1), rest)
  | _ => .error .truncated

def decodeChrd : List Byte → Except DecodeError (Instr × List Byte)
  | c :: rest => do .ok (.chrd (← decodeChannel c), rest)
  | _ => .error .truncated

def decodeChwr : List Byte → Except DecodeError (Instr × List Byte)
  | c :: t0 :: t1 :: t2 :: t3 :: rest => do .ok (.chwr (← decodeChannel c) (le32 t0 t1 t2 t3), rest)
  | _ => .error .truncated

def decodeSetsys : List Byte → Except DecodeError (Instr × List Byte)
  | sys :: i :: rest => do .ok (.setsys sys (← decodeBit i), rest)
  | _ => .error .truncated

def decodeSetopt : List Byte → Except DecodeError (Instr × List Byte)
  | w :: p :: rest => do .ok (.setopt (← decodeBit w) (← decodeBit p), rest)
  | _ => .error .truncated

/-- The decoder of a command image (R61, R62): the operation its code selects, and the rest of the image, which no port of
that operation holds. -/
def decodeCommand : List Byte → Except DecodeError (Instr × List Byte)
  | [] => .error .emptyImage
  | code :: ports =>
      match code.toNat with
      | 0x0 => .ok (.reserved0, ports)
      | 0x1 => decodeScfg ports
      | 0x2 => decodeScale ports
      | 0x3 => decodeDescale ports
      | 0x4 => decodeDec ports
      | 0x5 => decodeEnc ports
      | 0x6 => decodeEncp ports
      | 0x7 => decodeEnca ports
      | 0x8 => .ok (.poll, ports)
      | 0x9 => decodeChrd ports
      | 0xA => decodeChwr ports
      | 0xB => decodeSetsys ports
      | 0xC => decodeSetopt ports
      | 0xD => .ok (.reservedD, ports)
      | 0xE => .ok (.reservedE, ports)
      | 0xF => .ok (.reservedF, ports)
      | _ => .error .codeOutOfRange

/-! ## Wire words (R51 to R54, R59) -/

/-- HDR.INT: bits 15:8 fades, bits 7:0 system (R51). -/
def decodeHdrInt (w : SlotWord) : Instr := .hdrInt (w.extractLsb' 8 8) (w.extractLsb' 0 8)

/-- HDR.EXT: bits 15:0 fades (R52). -/
def decodeHdrExt (w : SlotWord) : Instr := .hdrExt w

/-- SLOT.C: bits 15:10 channelId, bits 9:0 rawValue (R53); the word 0xFFFF is the filler (R59). -/
def decodeSlotC (w : SlotWord) : Instr :=
  if w = 0xFFFF#16 then .slotFill else .slotC (w.extractLsb' 10 6) (w.extractLsb' 0 10)

/-- SLOT.X: bit 15 in no field, bits 14:11 channelId, bits 10:0 rawValue (R54); the word 0xFFFF is the filler (R59). -/
def decodeSlotX (w : SlotWord) : Instr :=
  if w = 0xFFFF#16 then .slotFill else .slotX (w.extractLsb' 15 1) (w.extractLsb' 11 4) (w.extractLsb' 0 11)

/-- The decoder of a wire word under the row it is read by (R60). Every word decodes (R57). -/
def decodeWire (kind : WireKind) (w : SlotWord) : Instr :=
  match kind with
  | .hdrInt => decodeHdrInt w
  | .hdrExt => decodeHdrExt w
  | .slotC => decodeSlotC w
  | .slotX => decodeSlotX w

/-- The decoder: what a presented image stands for. On the wire the high byte of a word comes first (R35, R36). -/
def decode : Encoded → Except DecodeError Instr
  | .command ports => do .ok (← decodeCommand ports).1
  | .wire kind b0 b1 => .ok (decodeWire kind (be16 b0 b1))

/-! ## The encoder -/

def encodeBit (b : Bool) : Byte := if b then 1#8 else 0#8

def encodeFormat : Format → Byte
  | .compact => 0#8
  | .extended => 1#8

def encodeRaw (v : RawVal) : List Byte := [loByte (v.setWidth 16), hiByte (v.setWidth 16)]

def encodeChannel (ch : Channel) : Byte := BitVec.ofNat 8 ch.val

def encodeSample (x : Sample) : List Byte := encodeChannel x.id :: encodeRaw x.val

/-- The command image of SETSYS: code 0xB (R61). -/
def encodeSetsys (sys : Byte) (internal : Bool) : List Byte := [0x0B#8, sys, encodeBit internal]

/-- The 16-bit word of a slot under SLOT.C (R53). -/
def slotCWord (channelId : BitVec 6) (rawValue : BitVec 10) : SlotWord := channelId ++ rawValue

/-- The 16-bit word of a slot under SLOT.X (R54). -/
def slotXWord (bit15 : BitVec 1) (channelId : BitVec 4) (rawValue : BitVec 11) : SlotWord :=
  (bit15 ++ channelId) ++ rawValue

/-- FILL_SLOT (R59, D7). -/
def fillSlot : SlotWord := 0xFFFF#16

/-- A wire word as it is presented, high byte first (R36: "On the wire a slot is always big-endian"). -/
def wireOf (kind : WireKind) (w : SlotWord) : Encoded := .wire kind (hiByte w) (loByte w)

/-- The encoder. SETMODE has no code of its own: it is presented as the SETSYS it expands to (R64, R132), which is why the
encoder reads BIND_TABLE. -/
def encode (cfg : Config) : Instr → Encoded
  | .scfg inMin inMax outMin outMax =>
      .command (0x01#8 :: loByte inMin :: hiByte inMin :: loByte inMax :: hiByte inMax :: (bytes32 outMin ++ bytes32 outMax))
  | .scale raw => .command (0x02#8 :: encodeRaw raw)
  | .descale value => .command (0x03#8 :: bytes32 value)
  | .dec fmt internal swap bytes =>
      .command (0x04#8 :: encodeFormat fmt :: encodeBit internal :: encodeBit swap :: BitVec.ofNat 8 bytes.length :: bytes)
  | .enc fmt internal swap fades system samples =>
      .command (0x05#8 :: encodeFormat fmt :: encodeBit internal :: encodeBit swap :: loByte fades :: hiByte fades
        :: system :: BitVec.ofNat 8 samples.length :: samples.flatMap encodeSample)
  | .encp fades => .command [0x06#8, loByte fades, hiByte fades]
  | .enca fades => .command [0x07#8, loByte fades, hiByte fades]
  | .poll => .command [0x08#8]
  | .chrd ch => .command [0x09#8, encodeChannel ch]
  | .chwr ch value => .command (0x0A#8 :: encodeChannel ch :: bytes32 value)
  | .setsys sys internal => .command (encodeSetsys sys internal)
  | .setopt swap procall => .command [0x0C#8, encodeBit swap, encodeBit procall]
  | .setmode m => .command (encodeSetsys cfg.bindTable[m].system cfg.bindTable[m].internal)
  | .reserved0 => .command [0x00#8]
  | .reservedD => .command [0x0D#8]
  | .reservedE => .command [0x0E#8]
  | .reservedF => .command [0x0F#8]
  | .hdrInt fades system => .wire .hdrInt fades system
  | .hdrExt fades => wireOf .hdrExt fades
  | .slotC c v => wireOf .slotC (slotCWord c v)
  | .slotX x c v => wireOf .slotX (slotXWord x c v)
  | .slotFill => wireOf .slotC fillSlot

/-- What an instruction decodes to once it is encoded: SETMODE is its SETSYS (R64), every other one is itself. -/
def expand (cfg : Config) : Instr → Instr
  | .scfg inMin inMax outMin outMax => .scfg inMin inMax outMin outMax
  | .scale raw => .scale raw
  | .descale value => .descale value
  | .dec fmt internal swap bytes => .dec fmt internal swap bytes
  | .enc fmt internal swap fades system samples => .enc fmt internal swap fades system samples
  | .encp fades => .encp fades
  | .enca fades => .enca fades
  | .poll => .poll
  | .chrd ch => .chrd ch
  | .chwr ch value => .chwr ch value
  | .setsys sys internal => .setsys sys internal
  | .setopt swap procall => .setopt swap procall
  | .setmode m => .setsys cfg.bindTable[m].system cfg.bindTable[m].internal
  | .reserved0 => .reserved0
  | .reservedD => .reservedD
  | .reservedE => .reservedE
  | .reservedF => .reservedF
  | .hdrInt fades system => .hdrInt fades system
  | .hdrExt fades => .hdrExt fades
  | .slotC c v => .slotC c v
  | .slotX x c v => .slotX x c v
  | .slotFill => .slotFill

/-! ## The opcode table's words -/

/-- The `n` low bytes of a number, low byte first. -/
def leBytes : Nat → Nat → List Byte
  | 0, _ => []
  | n + 1, w => BitVec.ofNat 8 w :: leBytes n (w / 256)

/-- The longest command image: ENC with seven samples. -/
def longestImage : Nat := 29

/-- A word of the opcode table as it is presented. A 16-bit row is a wire word; the table's words do not say by which
of the four layouts (R60), and a bare word is read as SLOT.C or SLOT.FILL (log 12). Any other row is a command image whose
operand ports are zero. -/
def tableImage (nbits w : Nat) : Encoded :=
  if nbits = 16 then wireOf .slotC (BitVec.ofNat 16 w) else .command (leBytes longestImage w)

/-- The instruction the decoder reads from a word of the opcode table. -/
def decodeTableWord (nbits w : Nat) : Option Instr :=
  match decode (tableImage nbits w) with
  | .ok i => some i
  | .error _ => none

end Sys2Proof
end

