-- ==== Sys2Proof/Machine/State.lean ====
section
/-! DEFINITION. The state of the block, what an operation returns, and the state after reset. -/

namespace Sys2Proof.Machine

/-- A byte space as plain data: (offset, byte) cells, offsets strictly rising, no cell holding 0, which is what an unlisted
offset reads as (log 4). `Memory.wf` in Ops.lean says the form. -/
abbrev Memory := List Host.Cell

/-- What decoding a frame yields (R91). -/
structure DecodedFrame where
  fades     : Fades
  system    : Option Byte
  samples   : List Sample
  discarded : Nat
deriving DecidableEq, Repr

/-- The record POLL returns for each decoded frame (R118). -/
structure FrameReport where
  fades     : Fades
  system    : Option Byte
  format    : Format
  stored    : Nat
  discarded : Nat
  valid     : Bool
  adopted   : Bool
deriving DecidableEq, Repr

/-- The status of an operation (R140). -/
inductive Status where
  | ok
  | shortBuffer
  | shortRead
  | invalidRange
  /-- Carries the rejected `sys` (R140). -/
  | unknownSystem (sys : Byte)
  | overflow
  | illegalCommand
deriving DecidableEq, Repr

/-- The result of an operation (R61). -/
inductive Result where
  /-- No result but the status: SCFG, CHWR, SETSYS, SETOPT, SETMODE, and every operation that raises. -/
  | none
  /-- A value of T: SCALE, CHRD. -/
  | value (t : TVal)
  /-- A raw value: DESCALE. -/
  | raw (r : RawVal)
  /-- A decoded frame: DEC. -/
  | decoded (d : DecodedFrame)
  /-- The 16 bytes of OUT: ENC, ENCP, ENCA. -/
  | out
  /-- The reports of POLL, one per decoded frame, in decode order. -/
  | reports (rs : List FrameReport)
deriving DecidableEq, Repr

/-- What the status port and the result ports show after an operation (R61). -/
structure Response where
  status : Status
  result : Result
deriving DecidableEq, Repr

/-- The faults of the block: there are none. A failing operation returns a status and the block goes on (R150, R151), and
"there is no undefined, unpredictable or hanging case in the block" (R153). No step can answer a fault. Safe. -/
inductive Fault where
deriving DecidableEq, Repr

/-- Why a step has no meaning. -/
inductive Refusal where
  /-- An arm of exec that has no meaning yet; no arm answers it in this model. Safe. -/
  | notModelled (mnemonic : String)
  /-- Raised by step for a command image that is no command, and by the meanings of DEC and ENC for an operand longer
  than its port: R62, "a model that represents operands more loosely must refuse such a call rather than give it a
  meaning". Safe. -/
  | illTyped (reason : DecodeError)
deriving DecidableEq, Repr

/-- The state of the block and of its interface. -/
structure State where
  /-- RAW[0..11] (R10). -/
  raw      : Vector RawVal 12
  /-- SYSTEM (R14). -/
  system   : Byte
  /-- FORMAT (R15). -/
  format   : Format
  /-- INTERNAL (R16). -/
  internal : Bool
  /-- SWAP (R17). -/
  swap     : Bool
  /-- PROCALL (R18). -/
  procall  : Bool
  /-- IN_MIN (R19). -/
  inMin    : InVal
  /-- IN_MAX (R19). -/
  inMax    : InVal
  /-- OUT_MIN (R20). -/
  outMin   : TVal
  /-- OUT_MAX (R20). -/
  outMax   : TVal
  /-- ACTIVE (R21). -/
  active   : Bool
  /-- RND, hardwired: no operation writes it (R22, log 21). -/
  rnd      : Bool
  /-- RX, oldest byte first (R33). -/
  rx       : List Byte
  /-- OUT (R30, R32, log 4). -/
  out      : Memory
  /-- The status and result ports: what the last operation returned; no operation reads it (R5, log 3). -/
  response : Option Response
  /-- What the host and the transport do next, oldest first (R6, R34, log 2). -/
  inputs   : List Input
  /-- The parameters of the instance; no step writes them (00_scope.md section 4, log 6). -/
  cfg      : Config
deriving DecidableEq, Repr

/-- Reset is construction (R160): the table of 10_state.md section 8. The four scaler bounds are unspecified there and
unobservable (R19, R20): zero here, DESIGN CHOICE (log 11). OUT, the response port and the inputs are the model's (log 4, log 3,
log 2). An unknown RST_SYSTEM, which R160 forbids and `Config.wf` excludes, gives Compact. -/
def State.construct (cfg : Config) : State where
  raw      := Vector.replicate 12 0#11
  system   := cfg.rstSystem
  format   := (fmtOf cfg cfg.rstSystem).getD .compact
  internal := cfg.rstInternal
  swap     := cfg.rstSwap
  procall  := false
  inMin    := 0#16
  inMax    := 0#16
  outMin   := 0#32
  outMax   := 0#32
  active   := false
  rnd      := cfg.tFrac == 0
  rx       := []
  out      := []
  response := none
  inputs   := []
  cfg      := cfg

/-- The block right after reset, for the instance TC0 (95_test_vectors.md section 0; log 7, 8, 9, 10). Statements about reset
are about `State.construct cfg` for every instance. -/
def State.reset : State := State.construct Config.tc0

end Sys2Proof.Machine
end

