-- ==== Sys2Proof/Machine/Operands.lean ====
section
/-! DEFINITION. The operand forms: the bytes of a frame, the fields of a slot word, the numbers of the scaler. -/

namespace Sys2Proof.Machine

/-! ## Bytes and words (R3, R36) -/

/-- `MemRead` of a byte sequence: the `n` bytes at offsets `off` to `off + n - 1`, lowest first (00_scope.md section 5). -/
def readBytes (bytes : List Byte) (off n : Nat) : List Byte := (bytes.drop off).take n

/-- `B[k]` of a byte sequence; every use is inside the sequence. -/
def byteAt (bytes : List Byte) (k : Nat) : Byte := bytes.getD k 0#8

/-- `bswap16(w) = ((w & 0x00FF) << 8) | (w >> 8)` (R3). -/
def bswap16 (w : SlotWord) : SlotWord := ((w &&& 0x00FF#16) <<< 8) ||| (w >>> 8)

/-- `native16(b0, b1)` (R3, D4). -/
def native16 (cfg : Config) (b0 b1 : Byte) : SlotWord := if cfg.nativeLE then le16 b0 b1 else be16 b0 b1

/-- `nativeBytes(w)`: first byte, second byte (R3, D4). -/
def nativeBytes (cfg : Config) (w : SlotWord) : Byte × Byte :=
  if cfg.nativeLE then (loByte w, hiByte w) else (hiByte w, loByte w)

/-- The byte-order step: `if SWAP then bswap16(w) else w` (R36). -/
def swapIf (swap : Bool) (w : SlotWord) : SlotWord := if swap then bswap16 w else w

/-- The slot word the field extraction works on (R36). -/
def slotWord (cfg : Config) (swap : Bool) (b0 b1 : Byte) : SlotWord := swapIf swap (native16 cfg b0 b1)

/-- The two bytes of a slot on encode, the inverse of `slotWord` (R36). -/
def slotBytes (cfg : Config) (swap : Bool) (slot : SlotWord) : Byte × Byte := nativeBytes cfg (swapIf swap slot)

/-! ## The fields of a slot word (R2, R55, R56, R57) -/

/-- `idMask(f)` (R2). -/
def idMask : Format → SlotWord
  | .compact => 0xFC00#16
  | .extended => 0x7800#16

/-- `valMask(f)` (R2). -/
def valMask : Format → SlotWord
  | .compact => 0x03FF#16
  | .extended => 0x07FF#16

/-- `shift(f)` (R2). -/
def shift : Format → Nat
  | .compact => 10
  | .extended => 11

/-- `channelId = (slot & idMask(f)) >> shift(f)` (R55). -/
def slotId (f : Format) (slot : SlotWord) : Nat := ((slot &&& idMask f) >>> shift f).toNat

/-- `rawValue = slot & valMask(f)`, zero-extended to the 11 bits of a register (R55). -/
def slotVal (f : Format) (slot : SlotWord) : RawVal := (slot &&& valMask f).setWidth 11

/-- What a slot contributes: its sample, or nothing when its channelId is 12 or above (R57). -/
def slotSample (f : Format) (slot : SlotWord) : Option Sample :=
  if h : slotId f slot < 12 then some ⟨⟨slotId f slot, h⟩, slotVal f slot⟩ else none

/-- Insertion: `((id << shift(f)) & idMask(f)) | (val & valMask(f))` (R56). -/
def insertSlot (f : Format) (x : Sample) : SlotWord :=
  ((BitVec.ofNat 16 x.id.val <<< shift f) &&& idMask f) ||| (x.val.setWidth 16 &&& valMask f)

/-! ## Exact quotients and their quantisers (R4, R74)

An exact rational is kept as numerator and denominator, unbounded integers, the denominator not 0: nothing wraps or is
rounded before the one quantisation. -/

/-- The exact rational `num / den` (R74). Every use has `den ≠ 0` (R80). -/
structure Ratio where
  num : Int
  den : Int
deriving DecidableEq, Repr

/-- `trunc0(q)`: truncation toward zero (R4, D21). -/
def trunc0 (q : Ratio) : Int := q.num.tdiv q.den

/-- `q >= 0`. -/
def Ratio.nonneg (q : Ratio) : Bool := decide (0 ≤ q.num * q.den)

/-- `rha(q)`: `trunc0(q + 1/2)` when `q >= 0`, `trunc0(q - 1/2)` when `q < 0` (R4, D20). -/
def rha (q : Ratio) : Int :=
  if q.nonneg then trunc0 ⟨2 * q.num + q.den, 2 * q.den⟩ else trunc0 ⟨2 * q.num - q.den, 2 * q.den⟩

/-- The linear formula `(x - x0) * (y1 - y0) / (x1 - x0) + y0`, exact (R72, R73, R74). -/
def linear (x x0 x1 y0 y1 : Int) : Ratio := ⟨(x - x0) * (y1 - y0) + y0 * (x1 - x0), x1 - x0⟩

end Sys2Proof.Machine
end

