-- ==== Sys2Proof/Machine/Flags.lean ====
section
/-! DEFINITION. The block has no flags, condition codes or sticky bits (R13). What it computes in their place is here: the
codes of the statuses, the tests behind InvalidRange and Overflow, and the two bits of a report. -/

namespace Sys2Proof.Machine

/-- The code of a status on the status port (R140). -/
def statusCode : Status → Nat
  | .ok => 0
  | .shortBuffer => 1
  | .shortRead => 2
  | .invalidRange => 3
  | .unknownSystem _ => 4
  | .overflow => 5
  | .illegalCommand => 6

/-- Representable as a T encoding: in `[T_MIN, T_MAX]` (R75). -/
def inTRange (t : Int) : Bool := decide (-2147483648 ≤ t) && decide (t ≤ 2147483647)

/-- Representable as a raw value: in `[0, 2047]` (R75). -/
def inRawRange (r : Int) : Bool := decide (0 ≤ r) && decide (r ≤ 2047)

/-- `isValidSystem(x)` (R114): true in external mode; in internal mode, the byte is a known system. -/
def isValidSystem (cfg : Config) (internal : Bool) (x : Option Byte) : Bool :=
  if internal then
    match x with
    | some s => known cfg s
    | none => false
  else true

/-- The Format to adopt, when the header announces another known system in internal mode (R115); `none` when nothing is
adopted. -/
def adoption (cfg : Config) (internal : Bool) (system : Byte) (x : Option Byte) : Option (Byte × Format) :=
  match x with
  | some s => if internal && s != system then (fmtOf cfg s).map (fun f => (s, f)) else none
  | none => none

end Sys2Proof.Machine
end

