-- ==== Sys2Proof/Machine/Ops.lean ====
section
/-! DEFINITION. The named operations over the state: the response port, raising a status, the registers and control
fields, RX, the memory OUT. -/

namespace Sys2Proof.Machine

/-! ## Ending an operation -/

/-- The status and result ports show the outcome of the operation (R61). -/
def State.respond (s : State) (status : Status) (result : Result) : State :=
  { s with response := some ⟨status, result⟩ }

/-- `raise X` (R5): the one operation by which an exception of this block is taken. The operation ends with the status; no
register, control field, byte of OUT or byte of RX changes; no state is saved and no control moves (R150). There is no
return from it: the block accepts the next operation as after OK (R151). -/
def raise (status : Status) (s : State) : Host.Outcome State Fault Refusal := .next (s.respond status .none)

/-- An operation that does not raise ends with status OK and its result (R5). -/
def complete (result : Result) (s : State) : Host.Outcome State Fault Refusal := .next (s.respond .ok result)

/-- A call the ports cannot express has no meaning (R62). -/
def refuse (reason : DecodeError) : Host.Outcome State Fault Refusal := .refused (.illTyped reason)

/-! ## Registers and control fields -/

/-- `RAW[ch]` (R10): every register is an ordinary read-write cell. -/
def State.readRaw (s : State) (ch : Channel) : RawVal := s.raw[ch]

/-- `RAW[ch] <- v` (R10). -/
def State.writeRaw (s : State) (ch : Channel) (v : RawVal) : State := { s with raw := s.raw.set ch v }

/-- The samples stored one by one, in order (R113). -/
def State.storeSamples (s : State) (samples : List Sample) : State :=
  samples.foldl (fun s x => s.writeRaw x.id x.val) s

/-- `SYSTEM <- s; FORMAT <- fmtOf(s)`, in one transition (R15, R115, R130). -/
def State.withSystem (s : State) (system : Byte) (format : Format) : State :=
  { s with system := system, format := format }

/-- `INTERNAL <- int` (R16, R130). -/
def State.withInternal (s : State) (internal : Bool) : State := { s with internal := internal }

/-- `SWAP <- swap; PROCALL <- procall` (R131). -/
def State.withOptions (s : State) (swap procall : Bool) : State := { s with swap := swap, procall := procall }

/-- `IN_MIN, IN_MAX, OUT_MIN, OUT_MAX <- ...; ACTIVE <- 1` (R70). -/
def State.withScaler (s : State) (inMin inMax : InVal) (outMin outMax : TVal) : State :=
  { s with inMin := inMin, inMax := inMax, outMin := outMin, outMax := outMax, active := true }

/-! ## RX (R33, R34) -/

/-- The transport appends bytes to the tail of RX (R34). -/
def State.receive (s : State) (bytes : List Byte) : State := { s with rx := s.rx ++ bytes }

/-- POLL removes bytes from the head of RX (R33). -/
def State.consume (s : State) (n : Nat) : State := { s with rx := s.rx.drop n }

/-! ## OUT (R30, R32, log 4) -/

/-- The canonical form: offsets strictly rising, and no cell equal to what an unlisted offset reads as. -/
abbrev Memory.wf (m : Memory) : Prop := m.Pairwise (fun x y => x.1 < y.1) ∧ ∀ x ∈ m, x.2 ≠ 0#8

/-- One byte; an unlisted offset reads 0 (DESIGN CHOICE, log 4). -/
def Memory.read : Memory → Nat → Byte
  | [], _ => 0#8
  | (k, b) :: m, a => if k = a then b else Memory.read m a

/-- Write one byte, keeping the canonical form. -/
def Memory.write : Memory → Nat → Byte → Memory
  | [], a, b => if b = 0#8 then [] else [(a, b)]
  | (k, c) :: m, a, b =>
      if k < a then (k, c) :: Memory.write m a b
      else if k = a then (if b = 0#8 then m else (a, b) :: m)
      else if b = 0#8 then (k, c) :: m else (a, b) :: (k, c) :: m

/-- `MemWrite`: the bytes go to offsets `off`, `off + 1`, … (00_scope.md section 5). -/
def Memory.writeBytes : Memory → Nat → List Byte → Memory
  | m, _, [] => m
  | m, off, b :: bytes => Memory.writeBytes (Memory.write m off b) (off + 1) bytes

/-- `MemRead`: the `n` bytes at offsets `off` to `off + n - 1` (00_scope.md section 5). -/
def Memory.readBytes (m : Memory) (off : Nat) : Nat → List Byte
  | 0 => []
  | n + 1 => Memory.read m off :: Memory.readBytes m (off + 1) n

/-- `MemWrite(OUT, 0, 16, frame)` (R92, R94, R95). -/
def State.writeOut (s : State) (frame : List Byte) : State := { s with out := Memory.writeBytes s.out 0 frame }

/-! ## The inputs (log 2) -/

/-- The inputs that remain once the oldest is taken. -/
def State.withInputs (s : State) (inputs : List Input) : State := { s with inputs := inputs }

end Sys2Proof.Machine
end

