-- ==== Sys2Proof/Machine/Control.lean ====
section
/-! DEFINITION. The configuration family: SETSYS, SETOPT and the pseudo-operation SETMODE (43_config.md). -/

namespace Sys2Proof.Machine

/-- SYSTEM, FORMAT and INTERNAL set from a known system; an unknown one raises UnknownSystem and writes nothing (R130). -/
def setSystem (sys : Byte) (internal : Bool) (s : State) : Host.Outcome State Fault Refusal :=
  match fmtOf s.cfg sys with
  | some f => complete .none ((s.withSystem sys f).withInternal internal)
  | none => raise (.unknownSystem sys) s

/-- SETSYS (R130). -/
def execSetsys (sys : Byte) (internal : Bool) (s : State) : Host.Outcome State Fault Refusal := setSystem sys internal s

/-- SETOPT (R131). -/
def execSetopt (swap procall : Bool) (s : State) : Host.Outcome State Fault Refusal :=
  complete .none (s.withOptions swap procall)

/-- SETMODE (R64, R132): the SETSYS of row `m` of BIND_TABLE. -/
def execSetmode (m : Fin 8) (s : State) : Host.Outcome State Fault Refusal :=
  setSystem s.cfg.bindTable[m].system s.cfg.bindTable[m].internal s

end Sys2Proof.Machine
end

