-- ==== Sys2Proof/Machine/Reserved.lean ====
section
/-! DEFINITION. The reserved command codes: each raises IllegalCommand (R62, R147). -/

namespace Sys2Proof.Machine

/-- Code 0x0 (R62, R147). -/
def execReserved0 (s : State) : Host.Outcome State Fault Refusal := raise .illegalCommand s

/-- Code 0xD (R62, R147). -/
def execReservedD (s : State) : Host.Outcome State Fault Refusal := raise .illegalCommand s

/-- Code 0xE (R62, R147). -/
def execReservedE (s : State) : Host.Outcome State Fault Refusal := raise .illegalCommand s

/-- Code 0xF (R62, R147). -/
def execReservedF (s : State) : Host.Outcome State Fault Refusal := raise .illegalCommand s

end Sys2Proof.Machine
end

