-- ==== Sys2Proof/Machine/Scaler.lean ====
section
/-! DEFINITION. The LinearScaler family: SCFG, SCALE, DESCALE, CHRD, CHWR (40_scaler.md). -/

namespace Sys2Proof.Machine

/-- SCALE before its representability test (R71, R72): the guards in their order, then the formula in units of `2^-F` and
the one quantisation. -/
def scaleExact (s : State) (raw : RawVal) : Except Status Int :=
  if s.active = false then .ok ((raw.toNat : Int) * 2 ^ s.cfg.tFrac)
  else if s.inMin = s.inMax then .error .invalidRange
  else if s.outMin = s.outMax then .ok 0
  else
    let q := linear raw.toNat s.inMin.toInt s.inMax.toInt s.outMin.toInt s.outMax.toInt
    .ok (if s.rnd then rha ⟨q.num, q.den * 2 ^ s.cfg.tFrac⟩ * 2 ^ s.cfg.tFrac else trunc0 q)

/-- `SCALE raw`: the T encoding, or the status raised (R72, R75). -/
def scaleValue (s : State) (raw : RawVal) : Except Status TVal :=
  match scaleExact s raw with
  | .error e => .error e
  | .ok t => if inTRange t then .ok (BitVec.ofInt 32 t) else .error .overflow

/-- DESCALE before its representability test (R71, R73). -/
def descaleExact (s : State) (value : TVal) : Except Status Int :=
  if s.active = false then
    let q : Ratio := ⟨value.toInt, 2 ^ s.cfg.tFrac⟩
    .ok (if s.rnd then rha q else trunc0 q)
  else if s.inMin = s.inMax then .error .invalidRange
  else if s.outMin = s.outMax then .ok 0
  else
    let q := linear value.toInt s.outMin.toInt s.outMax.toInt s.inMin.toInt s.inMax.toInt
    .ok (if s.rnd then rha q else trunc0 q)

/-- `DESCALE value`: the raw value, or the status raised (R73, R75). -/
def descaleValue (s : State) (value : TVal) : Except Status RawVal :=
  match descaleExact s value with
  | .error e => .error e
  | .ok r => if inRawRange r then .ok (BitVec.ofInt 11 r) else .error .overflow

/-- A value of T on the result port, or the status. -/
def finishScale (outcome : Except Status TVal) (s : State) : Host.Outcome State Fault Refusal :=
  match outcome with
  | .ok t => complete (.value t) s
  | .error e => raise e s

/-- SCFG (R70). -/
def execScfg (inMin inMax : InVal) (outMin outMax : TVal) (s : State) : Host.Outcome State Fault Refusal :=
  complete .none (s.withScaler inMin inMax outMin outMax)

/-- SCALE (R72). -/
def execScale (raw : RawVal) (s : State) : Host.Outcome State Fault Refusal := finishScale (scaleValue s raw) s

/-- DESCALE (R73). -/
def execDescale (value : TVal) (s : State) : Host.Outcome State Fault Refusal :=
  match descaleValue s value with
  | .ok r => complete (.raw r) s
  | .error e => raise e s

/-- CHRD (R77): SCALE of the register as it is now. -/
def execChrd (ch : Channel) (s : State) : Host.Outcome State Fault Refusal :=
  finishScale (scaleValue s (s.readRaw ch)) s

/-- CHWR (R78): DESCALE into the register; nothing is written when it raises. -/
def execChwr (ch : Channel) (value : TVal) (s : State) : Host.Outcome State Fault Refusal :=
  match descaleValue s value with
  | .ok r => complete .none (s.writeRaw ch r)
  | .error e => raise e s

end Sys2Proof.Machine
end

