-- ==== Sys2Proof/Machine/Codec.lean ====
section
/-! DEFINITION. The FrameCodec family: DEC, ENC, ENCP, ENCA (41_codec.md). -/

namespace Sys2Proof.Machine

/-- The seven slot positions, in wire order (R1, R91). -/
def slotIndices : List Nat := [0, 1, 2, 3, 4, 5, 6]

/-- The slot words of a frame, after the byte-order step: slot `i` is bytes `2 + 2*i` and `3 + 2*i` (R36, R40). -/
def frameSlots (cfg : Config) (swap : Bool) (frame : List Byte) : List SlotWord :=
  slotIndices.map (fun i => slotWord cfg swap (byteAt frame (2 + 2 * i)) (byteAt frame (3 + 2 * i)))

/-- The fades count of a header (R51, R52). -/
def frameFades (internal : Bool) (frame : List Byte) : Fades :=
  if internal then (byteAt frame 0).setWidth 16 else be16 (byteAt frame 0) (byteAt frame 1)

/-- The system byte of a header, present exactly in an internal one (R51, R52). -/
def frameSystem (internal : Bool) (frame : List Byte) : Option Byte :=
  if internal then some (byteAt frame 1) else none

/-- `decodeFrame(B, f, int, sw)` (R91). -/
def decodeFrame (cfg : Config) (frame : List Byte) (f : Format) (internal swap : Bool) : DecodedFrame :=
  let slots := frameSlots cfg swap frame
  { fades     := frameFades internal frame
    system    := frameSystem internal frame
    samples   := slots.filterMap (slotSample f)
    discarded := slots.countP (fun slot => (slotSample f slot).isNone) }

/-- The header bytes of `encodeFrame` (R51, R52, R93). -/
def encodeHeader (fades : Fades) (system : Byte) (internal : Bool) : List Byte :=
  if internal then [loByte fades, system] else [hiByte fades, loByte fades]

/-- The slot word at position `i` of `encodeFrame`: sample `i`, or the filler where there is none (R59, R93). -/
def encodeSlot (samples : List Sample) (f : Format) (i : Nat) : SlotWord :=
  match samples[i]? with
  | some x => insertSlot f x
  | none => fillSlot

/-- The two bytes of a slot as a list. -/
def slotByteList (cfg : Config) (swap : Bool) (slot : SlotWord) : List Byte :=
  [(slotBytes cfg swap slot).1, (slotBytes cfg swap slot).2]

/-- `encodeFrame(S, fades, system, int, f, sw)`: 16 bytes (R93). -/
def encodeFrame (cfg : Config) (samples : List Sample) (fades : Fades) (system : Byte) (internal : Bool) (f : Format)
    (swap : Bool) : List Byte :=
  encodeHeader fades system internal ++ slotIndices.flatMap (fun i => slotByteList cfg swap (encodeSlot samples f i))

/-- DEC (R90): a pure decode of the operand buffer IN under the operand modes. -/
def execDec (fmt : Format) (internal swap : Bool) (bytes : List Byte) (s : State) : Host.Outcome State Fault Refusal :=
  if 16 < bytes.length then refuse .inTooLong
  else if bytes.length < 16 then raise .shortBuffer s
  else complete (.decoded (decodeFrame s.cfg (readBytes bytes 0 16) fmt internal swap)) s

/-- ENC (R92): OUT is written; no state of the block is. -/
def execEnc (fmt : Format) (internal swap : Bool) (fades : Fades) (system : Byte) (samples : List Sample) (s : State) :
    Host.Outcome State Fault Refusal :=
  if 7 < samples.length then refuse .tooManySamples
  else complete .out (s.writeOut (encodeFrame s.cfg samples fades system internal fmt swap))

/-- The samples of the channels in a list, read from the registers (R94, R95). -/
def batch (s : State) (channels : List Channel) : List Sample := channels.map (fun ch => ⟨ch, s.readRaw ch⟩)

/-- The channels of the primary batch (R94). -/
def primaryChannels : List Channel := [0, 1, 2, 3, 4, 5, 6]

/-- The channels of the auxiliary batch (R95). -/
def auxiliaryChannels : List Channel := [7, 8, 9, 10, 11]

/-- A batch encoded under the control fields into OUT (R94, R95). -/
def encodeBatch (channels : List Channel) (fades : Fades) (s : State) : Host.Outcome State Fault Refusal :=
  complete .out (s.writeOut (encodeFrame s.cfg (batch s channels) fades s.system s.internal s.format s.swap))

/-- ENCP (R94). -/
def execEncp (fades : Fades) (s : State) : Host.Outcome State Fault Refusal := encodeBatch primaryChannels fades s

/-- ENCA (R95). -/
def execEnca (fades : Fades) (s : State) : Host.Outcome State Fault Refusal := encodeBatch auxiliaryChannels fades s

end Sys2Proof.Machine
end

