-- ==== Sys2Proof/Machine/Stream.lean ====
section
/-! DEFINITION. The stream operation POLL (42_stream.md). -/

namespace Sys2Proof.Machine

/-- `selectFrames(n, procall)` (R110): the offsets of the frames to decode, in order, and how many bytes leave RX. -/
def selectFrames (n : Nat) (procall : Bool) : List Nat × Nat :=
  if n < 16 then ([], 0)
  else if procall then ((List.range (n / 16)).map (fun j => 16 * j), 16 * (n / 16))
  else ([n - 16], n)

/-- SYSTEM and FORMAT after a header announced `x` (R115). -/
def State.adopt (s : State) (x : Option Byte) : State :=
  match adoption s.cfg s.internal s.system x with
  | some (system, format) => s.withSystem system format
  | none => s

/-- The report of a frame decoded to `d` in state `s` (R118). -/
def reportOf (s : State) (d : DecodedFrame) : FrameReport :=
  { fades     := d.fades
    system    := d.system
    format    := s.format
    stored    := d.samples.length
    discarded := d.discarded
    valid     := isValidSystem s.cfg s.internal d.system
    adopted   := (adoption s.cfg s.internal s.system d.system).isSome }

/-- `ingestFrame(B)` (R112): decode under the fields as they are now, store the samples, then adopt. -/
def ingestFrame (frame : List Byte) (s : State) : State × FrameReport :=
  let d := decodeFrame s.cfg frame s.format s.internal s.swap
  ((s.storeSamples d.samples).adopt d.system, reportOf s d)

/-- POLL's loop over the selected offsets of the snapshot `rx`, in order (R111, R120). -/
def ingestFrames (rx : List Byte) : List Nat → State → State × List FrameReport
  | [], s => (s, [])
  | off :: offsets, s =>
      let (s1, report) := ingestFrame (readBytes rx off 16) s
      let (s2, reports) := ingestFrames rx offsets s1
      (s2, report :: reports)

/-- POLL (R111). -/
def execPoll (s : State) : Host.Outcome State Fault Refusal :=
  if s.rx.length < 16 then raise .shortRead s
  else
    let selected := selectFrames s.rx.length s.procall
    let (s1, reports) := ingestFrames s.rx selected.1 s
    complete (.reports reports) (s1.consume selected.2)

end Sys2Proof.Machine
end

