-- ==== Sys2Proof/Machine/Wire.lean ====
section
/-! DEFINITION. The wire forms: a 16-bit word of a frame reaches the block through the transport, which appends its two
bytes to the tail of RX (R34), the high byte first (R35; R36: "On the wire a slot is always big-endian"). No operation
is issued, so the response port keeps what it shows. What the word means is POLL's to find out (R60, log 12). -/

namespace Sys2Proof.Machine

/-- A 16-bit word arrives, high byte first. -/
def receiveWord (w : SlotWord) (s : State) : Host.Outcome State Fault Refusal := .next (s.receive [hiByte w, loByte w])

/-- HDR.INT (R51): byte 0 is fades, byte 1 is system. -/
def execHdrInt (fades system : Byte) (s : State) : Host.Outcome State Fault Refusal := .next (s.receive [fades, system])

/-- HDR.EXT (R52). -/
def execHdrExt (fades : Fades) (s : State) : Host.Outcome State Fault Refusal := receiveWord fades s

/-- SLOT.C (R53). -/
def execSlotC (channelId : BitVec 6) (rawValue : BitVec 10) (s : State) : Host.Outcome State Fault Refusal :=
  receiveWord (slotCWord channelId rawValue) s

/-- SLOT.X (R54). -/
def execSlotX (bit15 : BitVec 1) (channelId : BitVec 4) (rawValue : BitVec 11) (s : State) :
    Host.Outcome State Fault Refusal :=
  receiveWord (slotXWord bit15 channelId rawValue) s

/-- SLOT.FILL (R59). -/
def execSlotFill (s : State) : Host.Outcome State Fault Refusal := receiveWord fillSlot s

end Sys2Proof.Machine
end

