-- ==== Sys2Proof/Machine/Dispatch.lean ====
section
/-! DEFINITION. One arm per constructor of Instr: its meaning. -/

namespace Sys2Proof.Machine

def exec (i : Instr) (s : State) : Host.Outcome State Fault Refusal :=
  match i with
  | .scfg inMin inMax outMin outMax => Sys2Proof.Machine.execScfg inMin inMax outMin outMax s
  | .scale raw => Sys2Proof.Machine.execScale raw s
  | .descale value => Sys2Proof.Machine.execDescale value s
  | .dec fmt internal swap bytes => Sys2Proof.Machine.execDec fmt internal swap bytes s
  | .enc fmt internal swap fades system samples => Sys2Proof.Machine.execEnc fmt internal swap fades system samples s
  | .encp fades => Sys2Proof.Machine.execEncp fades s
  | .enca fades => Sys2Proof.Machine.execEnca fades s
  | .poll => Sys2Proof.Machine.execPoll s
  | .chrd ch => Sys2Proof.Machine.execChrd ch s
  | .chwr ch value => Sys2Proof.Machine.execChwr ch value s
  | .setsys sys internal => Sys2Proof.Machine.execSetsys sys internal s
  | .setopt swap procall => Sys2Proof.Machine.execSetopt swap procall s
  | .setmode m => Sys2Proof.Machine.execSetmode m s
  | .reserved0 => Sys2Proof.Machine.execReserved0 s
  | .reservedD => Sys2Proof.Machine.execReservedD s
  | .reservedE => Sys2Proof.Machine.execReservedE s
  | .reservedF => Sys2Proof.Machine.execReservedF s
  | .hdrInt fades system => Sys2Proof.Machine.execHdrInt fades system s
  | .hdrExt fades => Sys2Proof.Machine.execHdrExt fades s
  | .slotC channelId rawValue => Sys2Proof.Machine.execSlotC channelId rawValue s
  | .slotX bit15 channelId rawValue => Sys2Proof.Machine.execSlotX bit15 channelId rawValue s
  | .slotFill => Sys2Proof.Machine.execSlotFill s

end Sys2Proof.Machine
end

