-- ==== Sys2Proof/Machine/Fetch.lean ====
section
/-! DEFINITION. Taking one input: what a step runs when the oldest input is a presented instruction or a run of received
bytes (R6, R34, log 2). -/

namespace Sys2Proof.Machine

/-- A presented instruction is decoded and run; an image that is no command is refused by name (R62). -/
def runEncoded (e : Encoded) (s : State) : Host.Outcome State Fault Refusal :=
  match decode e with
  | .ok i => exec i s
  | .error reason => refuse reason

/-- One input, with the later inputs still waiting in `s`. -/
def runInput (input : Input) (s : State) : Host.Outcome State Fault Refusal :=
  match input with
  | .present e => runEncoded e s
  | .receive bytes => .next (s.receive bytes)

end Sys2Proof.Machine
end

