-- ==== Sys2Proof/Machine/Step.lean ====
section
/-! DEFINITION. One step of the block: the oldest input is taken and run whole, as one atomic transition (R6). -/

namespace Sys2Proof.Machine

/-- With no input the block does nothing: it never acts on its own (R148). -/
def step (s : State) : Host.Outcome State Fault Refusal :=
  match s.inputs with
  | [] => .next s
  | input :: rest => runInput input (s.withInputs rest)

/-- `s` with the instruction of a table word as its oldest input, so that the next step runs exactly it. -/
def State.withFetchWord (s : State) (nbits w : Nat) : State :=
  s.withInputs (.present (tableImage nbits w) :: s.inputs)

end Sys2Proof.Machine
end

