-- ==== Sys2Proof/Safety.lean ====
section
/-! DEFINITION. What the claims say, in terms of their own: which states are consistent, which instructions are the host's
operations, and the spec's formulas written a second time, over the rationals and over plain numbers instead of exact
integer quotients and masks. -/

namespace Sys2Proof.Machine

/-- A consistent state: the parameters are those of an instance; FORMAT is the Format of SYSTEM, which is known (R14, R15);
RND is its strap (R22); OUT is in canonical form and has 16 bytes (R30, log 4). -/
abbrev State.Inv (s : State) : Prop :=
  s.cfg.wf = true ∧ fmtOf s.cfg s.system = some s.format ∧ s.rnd = (s.cfg.tFrac == 0)
    ∧ Memory.wf s.out ∧ ∀ x ∈ s.out, x.1 < 16

/-- The rows that the host issues (R61, R62, R64): all but the five wire forms. -/
def operation : Instr → Bool
  | .scfg _ _ _ _ => true
  | .scale _ => true
  | .descale _ => true
  | .dec _ _ _ _ => true
  | .enc _ _ _ _ _ _ => true
  | .encp _ => true
  | .enca _ => true
  | .poll => true
  | .chrd _ => true
  | .chwr _ _ => true
  | .setsys _ _ => true
  | .setopt _ _ => true
  | .setmode _ => true
  | .reserved0 => true
  | .reservedD => true
  | .reservedE => true
  | .reservedF => true
  | .hdrInt _ _ => false
  | .hdrExt _ => false
  | .slotC _ _ => false
  | .slotX _ _ _ => false
  | .slotFill => false

/-- The rows that go through the scaler (R71). -/
def scalerRow : Instr → Bool
  | .scale _ | .descale _ | .chrd _ | .chwr _ _ => true
  | .scfg _ _ _ _ | .dec _ _ _ _ | .enc _ _ _ _ _ _ | .encp _ | .enca _ | .poll | .setsys _ _ | .setopt _ _
  | .setmode _ | .reserved0 | .reservedD | .reservedE | .reservedF | .hdrInt _ _ | .hdrExt _ | .slotC _ _ | .slotX _ _ _
  | .slotFill => false

/-- The reserved command codes (R62). -/
def reservedRow : Instr → Bool
  | .reserved0 | .reservedD | .reservedE | .reservedF => true
  | .scfg _ _ _ _ | .scale _ | .descale _ | .dec _ _ _ _ | .enc _ _ _ _ _ _ | .encp _ | .enca _ | .poll | .chrd _ | .chwr _ _
  | .setsys _ _ | .setopt _ _ | .setmode _ | .hdrInt _ _ | .hdrExt _ | .slotC _ _ | .slotX _ _ _ | .slotFill => false

/-- The rows that R39 calls idempotent. -/
def readOnlyRow : Instr → Bool
  | .dec _ _ _ _ | .enc _ _ _ _ _ _ | .encp _ | .enca _ | .scale _ | .descale _ | .chrd _ => true
  | .scfg _ _ _ _ | .poll | .chwr _ _ | .setsys _ _ | .setopt _ _ | .setmode _ | .reserved0 | .reservedD | .reservedE
  | .reservedF | .hdrInt _ _ | .hdrExt _ | .slotC _ _ | .slotX _ _ _ | .slotFill => false

/-- The instructions of a list run one after another, stopping where one gives no next state. -/
def execAll : List Instr → State → Host.Outcome State Fault Refusal
  | [], s => .next s
  | i :: is, s =>
      match exec i s with
      | .next s1 => execAll is s1
      | .fault r => .fault r
      | .refused r => .refused r

/-! ## The scaler over the rationals -/

/-- `trunc0(q)` over the rationals (R4). -/
def truncQ (q : ℚ) : ℤ := if 0 ≤ q then ⌊q⌋ else ⌈q⌉

/-- `rha(q)` over the rationals (R4). -/
def rhaQ (q : ℚ) : ℤ := if 0 ≤ q then truncQ (q + 1 / 2) else truncQ (q - 1 / 2)

/-- R71 test 2 decides: the scaler is active and its input range is collapsed. -/
abbrev invalidRange (s : State) : Prop := s.active = true ∧ s.inMin = s.inMax

/-- `t` of R72's pseudocode, over the rationals, where InvalidRange is not raised and before the Overflow test. -/
def scaleSpec (s : State) (raw : RawVal) : ℤ :=
  if s.active = false then (raw.toNat : ℤ) * 2 ^ s.cfg.tFrac
  else if s.outMin = s.outMax then 0
  else
    let q : ℚ := (((raw.toNat : ℚ) - s.inMin.toInt) * ((s.outMax.toInt : ℚ) - s.outMin.toInt))
      / ((s.inMax.toInt : ℚ) - s.inMin.toInt) + s.outMin.toInt
    if s.rnd then rhaQ (q / 2 ^ s.cfg.tFrac) * 2 ^ s.cfg.tFrac else truncQ q

/-- `r` of R73's pseudocode, over the rationals, where InvalidRange is not raised and before the Overflow test. -/
def descaleSpec (s : State) (value : TVal) : ℤ :=
  if s.active = true ∧ s.outMin = s.outMax then 0
  else
    let q : ℚ :=
      if s.active = false then (value.toInt : ℚ) / 2 ^ s.cfg.tFrac
      else (((value.toInt : ℚ) - s.outMin.toInt) * ((s.inMax.toInt : ℚ) - s.inMin.toInt))
        / ((s.outMax.toInt : ℚ) - s.outMin.toInt) + s.inMin.toInt
    if s.rnd then rhaQ q else truncQ q

/-- Representable as a T encoding (R75). -/
abbrev fitsT (t : ℤ) : Prop := -2 ^ 31 ≤ t ∧ t ≤ 2 ^ 31 - 1

/-- Representable as a raw value (R75). -/
abbrev fitsRaw (r : ℤ) : Prop := 0 ≤ r ∧ r ≤ 2047

/-! ## The frame over plain numbers -/

/-- The number that two bytes of a slot stand for (R36): the high byte is the second one when NATIVE_LE xor SWAP is 1, and
the first one when it is 0. -/
def slotNumber (nativeLE swap : Bool) (b0 b1 : Byte) : Nat :=
  if nativeLE != swap then 256 * b1.toNat + b0.toNat else 256 * b0.toNat + b1.toNat

/-- The channelId field of a slot: bits 15:10 (R53), or bits 14:11 (R54). -/
def fieldId : Format → Nat → Nat
  | .compact, n => n / 1024
  | .extended, n => n / 2048 % 16

/-- The rawValue field of a slot: bits 9:0 (R53), or bits 10:0 (R54). -/
def fieldVal : Format → Nat → Nat
  | .compact, n => n % 1024
  | .extended, n => n % 2048

/-- Slot `i` of a frame as a number (R40). -/
def frameSlotNumber (cfg : Config) (swap : Bool) (frame : List Byte) (i : Nat) : Nat :=
  slotNumber cfg.nativeLE swap (frame.getD (2 + 2 * i) 0#8) (frame.getD (3 + 2 * i) 0#8)

/-- The kept pairs of a frame, in slot order (R55, R57, R91). -/
def framePairs (cfg : Config) (f : Format) (swap : Bool) (frame : List Byte) : List (Nat × Nat) :=
  (List.range 7).filterMap (fun i =>
    let n := frameSlotNumber cfg swap frame i
    if fieldId f n < 12 then some (fieldId f n, fieldVal f n) else none)

/-- The slot number that encode writes for a sample (R53, R54, R56): the value cut to its field, bit 15 clear. -/
def sampleNumber : Format → Sample → Nat
  | .compact, x => 1024 * x.id.val + x.val.toNat % 1024
  | .extended, x => 2048 * x.id.val + x.val.toNat

/-- OUT holds the frame of these samples (R93): the header of R51 or R52, sample `i` in slot `i`, 0xFFFF in the slots that
carry none, each slot in the byte order of R36. -/
def outHolds (cfg : Config) (out : Memory) (samples : List Sample) (fades : Fades) (system : Byte) (internal : Bool)
    (f : Format) (swap : Bool) : Prop :=
  (internal = true → (Memory.read out 0).toNat = fades.toNat % 256 ∧ Memory.read out 1 = system)
  ∧ (internal = false → (Memory.read out 0).toNat = fades.toNat / 256 ∧ (Memory.read out 1).toNat = fades.toNat % 256)
  ∧ ∀ i < 7, slotNumber cfg.nativeLE swap (Memory.read out (2 + 2 * i)) (Memory.read out (3 + 2 * i))
      = (samples[i]?.map (sampleNumber f)).getD 0xFFFF

/-- The fades count that a header word carries (R51, R52). -/
def wireFades : Instr → Option Nat
  | .hdrInt fades _ => some fades.toNat
  | .hdrExt fades => some fades.toNat
  | .scfg _ _ _ _ | .scale _ | .descale _ | .dec _ _ _ _ | .enc _ _ _ _ _ _ | .encp _ | .enca _ | .poll | .chrd _ | .chwr _ _
  | .setsys _ _ | .setopt _ _ | .setmode _ | .reserved0 | .reservedD | .reservedE | .reservedF | .slotC _ _ | .slotX _ _ _
  | .slotFill => none

/-- The instruction is a header word of the layout INTERNAL selects, and this is its system byte (R51, R52). -/
def headerWord (internal : Bool) (system : Option Byte) (i : Instr) : Prop :=
  if internal then ∃ fades sys, i = .hdrInt fades sys ∧ system = some sys
  else ∃ fades, i = .hdrExt fades ∧ system = none

/-- The instruction is a slot word of the layout FORMAT selects (R53, R54, R59), and these are its fields. -/
def slotFields : Format → Instr → Nat × Nat → Prop
  | .compact, i, p =>
      (∃ c v, i = .slotC c v ∧ p = (c.toNat, v.toNat)) ∨ (i = .slotFill ∧ p = (63, 1023))
  | .extended, i, p =>
      (∃ x c v, i = .slotX x c v ∧ p = (c.toNat, v.toNat)) ∨ (i = .slotFill ∧ p = (15, 2047))

/-- What a register holds after pairs are stored in order: the value of the last pair that names it, else what it
held (R113). -/
def lastNamed (pairs : List (Nat × Nat)) (ch : Channel) (old : Nat) : Nat :=
  ((pairs.filter (fun p => p.1 == ch.val)).getLast?.map (fun p => p.2)).getD old

end Sys2Proof.Machine
end

