-- ==== Sys2Proof/Certificates/Slice0/Obligations.lean ====
section
/-! DEFINITION. The statements for the provers. A statement whose clause rests on a choice of the model, and not on a rule
of the spec, says so in its docstring and names the log entry. -/

open Sys2Proof Sys2Proof.Machine

/-! ## The machine as a whole -/

/-- One step takes the oldest input: a presented image that decodes is run by exec; one that is no command is refused by
name (R62); received bytes go to the tail of RX (R34); with no input nothing changes (R148). The list of inputs is the
model's (log 2). -/
def Obligations.StepRunsThePresentedInstruction : Prop :=
  ∀ (s : State) (rest : List Input),
    (∀ e i, s.inputs = .present e :: rest → decode e = .ok i → step s = exec i { s with inputs := rest })
    ∧ (∀ e reason, s.inputs = .present e :: rest → decode e = .error reason → step s = .refused (.illTyped reason))
    ∧ (∀ bytes, s.inputs = .receive bytes :: rest → step s = .next { s with inputs := rest, rx := s.rx ++ bytes })
    ∧ (s.inputs = [] → step s = .next s)

/-- Words written out from the spec's encodings decode to the instruction they stand for: the codes of R61 and the fields
of R51 to R54. The byte image of the operand ports is the model's (log 1). -/
def Obligations.SpecWordsDecode : Prop :=
  decode (.command [0b00001011#8, 0b10110010#8, 0b00000001#8]) = .ok (.setsys 0xB2#8 true)
  ∧ decode (.command [0b00001100#8, 0b00000001#8, 0b00000000#8]) = .ok (.setopt true false)
  ∧ decode (.command [0b00000010#8, 0b11111111#8, 0b00000101#8]) = .ok (.scale 1535#11)
  ∧ decode (.command [0b00001000#8]) = .ok .poll
  ∧ decode (.command [0b00000110#8, 0b11101111#8, 0b10111110#8]) = .ok (.encp 0xBEEF#16)
  ∧ decode (.command [0b00001001#8, 0b00001011#8]) = .ok (.chrd 11)
  ∧ decode (.command [0b00001001#8, 0b00001100#8]) = .error .channelOutOfRange
  ∧ decode (.command [0b00001110#8]) = .ok .reservedE
  ∧ decode (.wire .slotC 0b00000100#8 0b00000001#8) = .ok (.slotC 1#6 1#10)
  ∧ decode (.wire .slotX 0b10001000#8 0b00000001#8) = .ok (.slotX 1#1 1#4 1#11)
  ∧ decode (.wire .hdrInt 0b00001001#8 0b10110010#8) = .ok (.hdrInt 9#8 0xB2#8)
  ∧ decode (.wire .hdrExt 0b00010010#8 0b00110100#8) = .ok (.hdrExt 0x1234#16)
  ∧ decode (.wire .slotX 0b11111111#8 0b11111111#8) = .ok .slotFill

/-- Decoding what the encoder writes gives the instruction back, with every operand; SETMODE gives the SETSYS it expands
to (R64). What the image holds beyond the operands is left over, whatever it is (log 1). -/
def Obligations.DecodeOfEncode : Prop :=
  ∀ (cfg : Config) (i : Instr), i.wf = true →
    decode (encode cfg i) = .ok (expand cfg i)
    ∧ ∀ ports rest, encode cfg i = .command ports → decodeCommand (ports ++ rest) = .ok (expand cfg i, rest)

/-- Whatever is presented, the decoder gives only instructions that the ports can express (R62). -/
def Obligations.DecodedInstructionsAreExpressible : Prop :=
  ∀ e i, decode e = .ok i → i.wf = true

/-- The state after reset, for every instance: the table of 10_state.md section 8. The values of the scaler bounds, OUT and
the response port are not in it (log 11, log 4, log 3) and are not stated. -/
def Obligations.ConstructedState : Prop :=
  ∀ cfg : Config, cfg.wf = true →
    (∀ ch : Channel, (State.construct cfg).raw[ch] = 0#11)
    ∧ (State.construct cfg).system = cfg.rstSystem
    ∧ fmtOf cfg cfg.rstSystem = some (State.construct cfg).format
    ∧ (State.construct cfg).internal = cfg.rstInternal
    ∧ (State.construct cfg).swap = cfg.rstSwap
    ∧ (State.construct cfg).procall = false
    ∧ (State.construct cfg).active = false
    ∧ (State.construct cfg).rnd = (cfg.tFrac == 0)
    ∧ (State.construct cfg).rx = []

/-- The state after reset is consistent, for every instance. -/
def Obligations.ConstructedStateIsConsistent : Prop :=
  ∀ cfg : Config, cfg.wf = true → (State.construct cfg).Inv

/-- Every step keeps the state consistent: FORMAT stays the Format of SYSTEM, which stays known (R14, R15); RND stays its
strap (R22); the instance stays an instance; OUT keeps its canonical form and its 16 bytes (log 4). -/
def Obligations.StepKeepsConsistency : Prop :=
  ∀ s t : State, s.Inv → step s = .next t → t.Inv

/-- Every operation that can be expressed ends, in every state, with exactly one status of R140 (R153). No rule says that the
arrival of a wire word has a next state too: that a wire form's meaning is its arrival is the model's choice (log 12), and
that the status stands on the response port is too (log 3). -/
def Obligations.EveryOperationEndsWithOneStatus : Prop :=
  ∀ (i : Instr) (s : State), i.wf = true →
    ∃ t, exec i s = .next t
      ∧ (operation i = true → ∃ status result, t.response = some ⟨status, result⟩ ∧ statusCode status ≤ 6)

/-- R140: the code of each status, the operations that raise it and its cause, each exactly; every status but OK comes
without a result. SETMODE raises what its SETSYS raises (R64). -/
def Obligations.StatusesHaveTheirCauses : Prop :=
  (statusCode .ok = 0 ∧ statusCode .shortBuffer = 1 ∧ statusCode .shortRead = 2 ∧ statusCode .invalidRange = 3
    ∧ (∀ sys, statusCode (.unknownSystem sys) = 4) ∧ statusCode .overflow = 5 ∧ statusCode .illegalCommand = 6)
  ∧ ∀ (i : Instr) (s t : State) (status : Status) (result : Result),
      operation i = true → exec i s = .next t → t.response = some ⟨status, result⟩ →
        (status = .shortBuffer ↔ ∃ f internal swap bytes, i = .dec f internal swap bytes ∧ bytes.length < 16)
        ∧ (status = .shortRead ↔ i = .poll ∧ s.rx.length < 16)
        ∧ (status = .invalidRange ↔ scalerRow i = true ∧ s.active = true ∧ s.inMin = s.inMax)
        ∧ (∀ sys, status = .unknownSystem sys ↔ known s.cfg sys = false
            ∧ ((∃ internal, i = .setsys sys internal) ∨ ∃ m : Fin 8, i = .setmode m ∧ s.cfg.bindTable[m].system = sys))
        ∧ (status = .overflow ↔ ¬ invalidRange s ∧
            ((∃ raw, i = .scale raw ∧ ¬ fitsT (scaleSpec s raw)) ∨ (∃ ch, i = .chrd ch ∧ ¬ fitsT (scaleSpec s s.raw[ch]))
            ∨ (∃ v, i = .descale v ∧ ¬ fitsRaw (descaleSpec s v)) ∨ (∃ ch v, i = .chwr ch v ∧ ¬ fitsRaw (descaleSpec s v))))
        ∧ (status = .illegalCommand ↔ reservedRow i = true)
        ∧ (status ≠ .ok → result = .none)

/-- R5: an operation that raises writes nothing but the response port; one that does not raise ends with status OK; no
operation can read what an earlier one answered. The response port is the model's (log 3). -/
def Obligations.RaisingWritesNothing : Prop :=
  (∀ (i : Instr) (s t : State) (status : Status) (result : Result),
      operation i = true → exec i s = .next t → t.response = some ⟨status, result⟩ → status ≠ .ok →
        t = { s with response := some ⟨status, .none⟩ })
  ∧ (∀ (i : Instr) (s t : State), operation i = true → exec i s = .next t → t.response ≠ none)
  ∧ (∀ (i : Instr) (s : State) (r : Option Response), operation i = true → exec i { s with response := r } = exec i s)

/-- R147: presenting a reserved command code, whatever the operand ports hold, raises IllegalCommand and changes no state. -/
def Obligations.ReservedCodesRaiseIllegalCommand : Prop :=
  (∀ (s : State) (code : Byte) (ports : List Byte) (rest : List Input),
      (code = 0x0#8 ∨ code = 0xD#8 ∨ code = 0xE#8 ∨ code = 0xF#8) →
      s.inputs = .present (.command (code :: ports)) :: rest →
        step s = .next { s with inputs := rest, response := some ⟨.illegalCommand, .none⟩ })
  ∧ ∀ (i : Instr) (s : State), reservedRow i = true →
      exec i s = .next { s with response := some ⟨.illegalCommand, .none⟩ }

/-- R10: only POLL and CHWR write the register file, and CHWR only the register it names. -/
def Obligations.RegistersWrittenOnlyByPollAndChwr : Prop :=
  ∀ (i : Instr) (s t : State), exec i s = .next t →
    (i ≠ .poll → (∀ ch v, i ≠ .chwr ch v) → t.raw = s.raw)
    ∧ ∀ ch v, i = .chwr ch v → ∀ c : Channel, c ≠ ch → t.raw[c] = s.raw[c]

/-- Who writes every other field (R14 to R22, R32 to R34): no instruction changes a field but those named here. The fields
`inputs` and `cfg` are the model's (log 2, log 6). -/
def Obligations.FieldsWrittenOnlyByTheirOperations : Prop :=
  ∀ (i : Instr) (s t : State), exec i s = .next t →
    (t.system ≠ s.system ∨ t.format ≠ s.format →
        (i = .poll ∧ s.internal = true) ∨ (∃ sys internal, i = .setsys sys internal) ∨ ∃ m, i = .setmode m)
    ∧ (t.internal ≠ s.internal → (∃ sys internal, i = .setsys sys internal) ∨ ∃ m, i = .setmode m)
    ∧ (t.swap ≠ s.swap ∨ t.procall ≠ s.procall → ∃ swap procall, i = .setopt swap procall)
    ∧ (t.inMin ≠ s.inMin ∨ t.inMax ≠ s.inMax ∨ t.outMin ≠ s.outMin ∨ t.outMax ≠ s.outMax ∨ t.active ≠ s.active →
        ∃ a b c d, i = .scfg a b c d)
    ∧ (t.rx ≠ s.rx → i = .poll ∨ operation i = false)
    ∧ ((∃ a, Memory.read t.out a ≠ Memory.read s.out a) →
        (∃ f internal swap fades system samples, i = .enc f internal swap fades system samples)
          ∨ (∃ fades, i = .encp fades) ∨ ∃ fades, i = .enca fades)
    ∧ t.rnd = s.rnd ∧ t.cfg = s.cfg ∧ t.inputs = s.inputs

/-- R21: ACTIVE is 0 after reset, SCFG sets it, no operation clears it; while it is 0, SCALE is the identity on every raw
value, and DESCALE on its image. -/
def Obligations.ActiveIsSetByScfgAndNeverCleared : Prop :=
  (∀ cfg : Config, (State.construct cfg).active = false)
  ∧ (∀ (i : Instr) (s t : State), exec i s = .next t →
      ((∃ a b c d, i = .scfg a b c d) → t.active = true)
      ∧ ((∀ a b c d, i ≠ .scfg a b c d) → t.active = s.active))
  ∧ ∀ (s : State) (raw : RawVal), s.active = false → s.cfg.tFrac ≤ 20 →
      ∃ v : TVal, v.toInt = (raw.toNat : ℤ) * 2 ^ s.cfg.tFrac
        ∧ exec (.scale raw) s = .next { s with response := some ⟨.ok, .value v⟩ }
        ∧ exec (.descale v) s = .next { s with response := some ⟨.ok, .raw raw⟩ }

/-- R19, R20: while the scaler is inactive the four bounds cannot be observed: two states that differ in them alone answer
alike and differ in them alone afterwards, and not even in them after SCFG. -/
def Obligations.BoundsOfAnInactiveScalerCannotBeObserved : Prop :=
  ∀ (i : Instr) (s t : State) (a b : InVal) (c d : TVal), s.active = false → exec i s = .next t →
    ∃ t1, exec i { s with inMin := a, inMax := b, outMin := c, outMax := d } = .next t1
      ∧ ((∃ a1 b1 c1 d1, i = .scfg a1 b1 c1 d1) → t1 = t)
      ∧ ((∀ a1 b1 c1 d1, i ≠ .scfg a1 b1 c1 d1) → t1 = { t with inMin := a, inMax := b, outMin := c, outMax := d })

/-- R32: the block does not read OUT back: two states that differ in OUT alone answer alike and differ in OUT alone
afterwards. -/
def Obligations.OutIsNeverReadBack : Prop :=
  ∀ (i : Instr) (s t : State) (m : Memory), exec i s = .next t →
    ∃ t1, exec i { s with out := m } = .next t1 ∧ t1 = { t with out := t1.out }

/-! ## The scaler -/

/-- R70: SCFG stores any four bounds, sets ACTIVE, ends with OK, and changes nothing else; repeated, it changes nothing. -/
def Obligations.ScfgStoresAndActivates : Prop :=
  ∀ (s : State) (a b : InVal) (c d : TVal),
    ∃ t, exec (.scfg a b c d) s = .next t
      ∧ t = { s with inMin := a, inMax := b, outMin := c, outMax := d, active := true, response := some ⟨.ok, .none⟩ }
      ∧ exec (.scfg a b c d) t = .next t

/-- R72: SCALE answers InvalidRange, or the value of its pseudocode over the rationals where T can hold it, or Overflow; it
writes nothing. `scaleSpec` is the pseudocode. -/
def Obligations.ScaleFollowsItsFormula : Prop :=
  ∀ (s : State) (raw : RawVal),
    (invalidRange s → exec (.scale raw) s = .next { s with response := some ⟨.invalidRange, .none⟩ })
    ∧ (¬ invalidRange s → fitsT (scaleSpec s raw) →
        ∃ v : TVal, v.toInt = scaleSpec s raw ∧ exec (.scale raw) s = .next { s with response := some ⟨.ok, .value v⟩ })
    ∧ (¬ invalidRange s → ¬ fitsT (scaleSpec s raw) →
        exec (.scale raw) s = .next { s with response := some ⟨.overflow, .none⟩ })

/-- R72's corner cases: in a consistent state, the input bounds map to the output bounds exactly. -/
def Obligations.ScaleIsExactAtTheBounds : Prop :=
  ∀ (s : State) (raw : RawVal), s.Inv → s.active = true → s.inMin ≠ s.inMax → s.outMin ≠ s.outMax →
    ((raw.toNat : ℤ) = s.inMin.toInt → exec (.scale raw) s = .next { s with response := some ⟨.ok, .value s.outMin⟩ })
    ∧ ((raw.toNat : ℤ) = s.inMax.toInt → exec (.scale raw) s = .next { s with response := some ⟨.ok, .value s.outMax⟩ })

/-- R73: DESCALE answers InvalidRange, or the raw value of its pseudocode over the rationals where it lies in 0..2047, or
Overflow; it writes nothing. `descaleSpec` is the pseudocode. -/
def Obligations.DescaleFollowsItsFormula : Prop :=
  ∀ (s : State) (value : TVal),
    (invalidRange s → exec (.descale value) s = .next { s with response := some ⟨.invalidRange, .none⟩ })
    ∧ (¬ invalidRange s → fitsRaw (descaleSpec s value) →
        ∃ r : RawVal, (r.toNat : ℤ) = descaleSpec s value
          ∧ exec (.descale value) s = .next { s with response := some ⟨.ok, .raw r⟩ })
    ∧ (¬ invalidRange s → ¬ fitsRaw (descaleSpec s value) →
        exec (.descale value) s = .next { s with response := some ⟨.overflow, .none⟩ })

/-- R77: CHRD is SCALE of the register as it is now, with the statuses it raises, and writes nothing; after reset it reads
0 of every channel. -/
def Obligations.ChrdScalesTheRegister : Prop :=
  (∀ (s : State) (ch : Channel),
    (invalidRange s → exec (.chrd ch) s = .next { s with response := some ⟨.invalidRange, .none⟩ })
    ∧ (¬ invalidRange s → fitsT (scaleSpec s s.raw[ch]) →
        ∃ v : TVal, v.toInt = scaleSpec s s.raw[ch]
          ∧ exec (.chrd ch) s = .next { s with response := some ⟨.ok, .value v⟩ })
    ∧ (¬ invalidRange s → ¬ fitsT (scaleSpec s s.raw[ch]) →
        exec (.chrd ch) s = .next { s with response := some ⟨.overflow, .none⟩ }))
  ∧ ∀ (cfg : Config) (ch : Channel),
      exec (.chrd ch) (State.construct cfg) = .next { State.construct cfg with response := some ⟨.ok, .value 0#32⟩ }

/-- R78: CHWR writes DESCALE of the value into the register and nothing else; where DESCALE raises, CHWR raises the same and
writes nothing. With a degenerate output range every CHWR writes 0. -/
def Obligations.ChwrDescalesIntoTheRegister : Prop :=
  ∀ (s : State) (ch : Channel) (value : TVal),
    (invalidRange s → exec (.chwr ch value) s = .next { s with response := some ⟨.invalidRange, .none⟩ })
    ∧ (¬ invalidRange s → fitsRaw (descaleSpec s value) →
        ∃ r : RawVal, (r.toNat : ℤ) = descaleSpec s value
          ∧ exec (.chwr ch value) s = .next { s with raw := s.raw.set ch r, response := some ⟨.ok, .none⟩ })
    ∧ (¬ invalidRange s → ¬ fitsRaw (descaleSpec s value) →
        exec (.chwr ch value) s = .next { s with response := some ⟨.overflow, .none⟩ })
    ∧ (s.active = true → s.inMin ≠ s.inMax → s.outMin = s.outMax →
        exec (.chwr ch value) s = .next { s with raw := s.raw.set ch 0#11, response := some ⟨.ok, .none⟩ })

/-- The guards of R71 in their order, for the four operations at once: an inactive scaler is the identity path whatever the
bounds are; then InvalidRange, also where both ranges are collapsed; then the degenerate zero. Reading a raw value v back
on the identity path needs T to hold it (R75). -/
def Obligations.ScalerGuardsInOrder : Prop :=
  ∀ (s : State) (raw : RawVal) (value : TVal) (ch : Channel),
    (s.active = false → s.cfg.tFrac = 0 →
      exec (.scale raw) s = .next { s with response := some ⟨.ok, .value (raw.setWidth 32)⟩ }
      ∧ exec (.chrd ch) s = .next { s with response := some ⟨.ok, .value (s.raw[ch].setWidth 32)⟩ }
      ∧ exec (.descale (raw.setWidth 32)) s = .next { s with response := some ⟨.ok, .raw raw⟩ }
      ∧ exec (.chwr ch (raw.setWidth 32)) s = .next { s with raw := s.raw.set ch raw, response := some ⟨.ok, .none⟩ })
    ∧ (s.active = true → s.inMin = s.inMax →
      exec (.scale raw) s = .next { s with response := some ⟨.invalidRange, .none⟩ }
      ∧ exec (.chrd ch) s = .next { s with response := some ⟨.invalidRange, .none⟩ }
      ∧ exec (.descale value) s = .next { s with response := some ⟨.invalidRange, .none⟩ }
      ∧ exec (.chwr ch value) s = .next { s with response := some ⟨.invalidRange, .none⟩ })
    ∧ (s.active = true → s.inMin ≠ s.inMax → s.outMin = s.outMax →
      exec (.scale raw) s = .next { s with response := some ⟨.ok, .value 0#32⟩ }
      ∧ exec (.chrd ch) s = .next { s with response := some ⟨.ok, .value 0#32⟩ }
      ∧ exec (.descale value) s = .next { s with response := some ⟨.ok, .raw 0#11⟩ }
      ∧ exec (.chwr ch value) s = .next { s with raw := s.raw.set ch 0#11, response := some ⟨.ok, .none⟩ })

/-- R143: InvalidRange is raised by every scaler operation while the scaler is active with a collapsed input range, writing
nothing; SCFG never raises it; it is not latched, and after an SCFG with distinct input bounds no operation raises it; no
codec operation ever does. -/
def Obligations.InvalidRangeLastsUntilReconfigured : Prop :=
  (∀ (i : Instr) (s : State), scalerRow i = true → s.active = true → s.inMin = s.inMax →
      exec i s = .next { s with response := some ⟨.invalidRange, .none⟩ })
  ∧ (∀ (s : State) (a b : InVal) (c d : TVal), ∃ t, exec (.scfg a b c d) s = .next t ∧ t.response = some ⟨.ok, .none⟩
      ∧ (a ≠ b → ∀ (i : Instr) (t1 : State) (result : Result), exec i t = .next t1 →
          t1.response ≠ some ⟨.invalidRange, result⟩))
  ∧ ∀ (i : Instr) (s t : State) (result : Result), operation i = true → scalerRow i = false → exec i s = .next t →
      t.response ≠ some ⟨.invalidRange, result⟩

/-- R4: over every exact quotient with a divisor other than 0, `trunc0` is the integer nearest to the quotient among those
not beyond it in magnitude and of its sign, and `rha` is the nearest integer, ties away from zero; the spec's examples. -/
def Obligations.QuantisersOverTheRationals : Prop :=
  (∀ n m : ℤ, m ≠ 0 →
    (|(trunc0 ⟨n, m⟩ : ℚ)| ≤ |(n : ℚ) / m| ∧ |(n : ℚ) / m| < |(trunc0 ⟨n, m⟩ : ℚ)| + 1
      ∧ 0 ≤ (trunc0 ⟨n, m⟩ : ℚ) * ((n : ℚ) / m))
    ∧ trunc0 ⟨n, m⟩ = truncQ ((n : ℚ) / m)
    ∧ |(rha ⟨n, m⟩ : ℚ) - (n : ℚ) / m| ≤ 1 / 2
    ∧ (|(rha ⟨n, m⟩ : ℚ) - (n : ℚ) / m| = 1 / 2 → |(n : ℚ) / m| < |(rha ⟨n, m⟩ : ℚ)|)
    ∧ rha ⟨n, m⟩ = rhaQ ((n : ℚ) / m))
  ∧ trunc0 ⟨29, 10⟩ = 2 ∧ trunc0 ⟨-29, 10⟩ = -2 ∧ trunc0 ⟨-1, 2⟩ = 0
  ∧ rha ⟨1, 2⟩ = 1 ∧ rha ⟨-1, 2⟩ = -1 ∧ rha ⟨149, 100⟩ = 1 ∧ rha ⟨-5, 2⟩ = -3

/-- R80: the quantisers are odd in the quotient, on either side of it; the rows of its table. -/
def Obligations.QuantisersAreOdd : Prop :=
  (∀ n m : ℤ, m ≠ 0 →
    trunc0 ⟨-n, m⟩ = -trunc0 ⟨n, m⟩ ∧ trunc0 ⟨n, -m⟩ = -trunc0 ⟨n, m⟩
    ∧ rha ⟨-n, m⟩ = -rha ⟨n, m⟩ ∧ rha ⟨n, -m⟩ = -rha ⟨n, m⟩)
  ∧ trunc0 ⟨7, 2⟩ = 3 ∧ rha ⟨7, 2⟩ = 4 ∧ trunc0 ⟨-7, -2⟩ = 3 ∧ rha ⟨-7, -2⟩ = 4
  ∧ trunc0 ⟨7, -2⟩ = -3 ∧ rha ⟨7, -2⟩ = -4 ∧ trunc0 ⟨1, 3⟩ = 0 ∧ rha ⟨1, 3⟩ = 0 ∧ rha ⟨-1, 3⟩ = 0
  ∧ ∀ m : ℤ, trunc0 ⟨0, m⟩ = 0

/-- The bounds of R79 item 1: in a consistent state, DESCALE of SCALE of a raw value is near it when neither overflows; it
is the raw value itself when T is integral and finer than the raw range. -/
def Obligations.ScaleThenDescaleIsNear : Prop :=
  ∀ (s : State) (raw r : RawVal) (v : TVal), s.Inv → s.active = true → s.inMin ≠ s.inMax → s.outMin ≠ s.outMax →
    exec (.scale raw) s = .next { s with response := some ⟨.ok, .value v⟩ } →
    exec (.descale v) s = .next { s with response := some ⟨.ok, .raw r⟩ } →
    let ba : ℤ := |s.inMax.toInt - s.inMin.toInt|
    let dc : ℤ := |s.outMax.toInt - s.outMin.toInt|
    let err : ℤ := |(r.toNat : ℤ) - raw.toNat|
    (s.cfg.tFrac = 0 → 2 * dc * err ≤ dc + ba ∧ (ba < dc → r = raw))
    ∧ (s.cfg.tFrac = 16 → dc * err < dc + ba)

/-! ## The codec -/

/-- R90, R91: of 16 bytes DEC decodes the header of R51 or R52 and the seven slots in wire order, keeping the pairs whose
channelId is below 12; of fewer it raises ShortBuffer; either way it reads and writes no state of the block (it depends on
the instance's byte lanes alone). -/
def Obligations.DecDecodesAFrame : Prop :=
  ∀ (s : State) (f : Format) (internal swap : Bool) (bytes : List Byte),
    (bytes.length < 16 → exec (.dec f internal swap bytes) s = .next { s with response := some ⟨.shortBuffer, .none⟩ })
    ∧ (bytes.length = 16 →
      ∃ d : DecodedFrame,
        exec (.dec f internal swap bytes) s = .next { s with response := some ⟨.ok, .decoded d⟩ }
        ∧ d.fades.toNat = (if internal then (bytes.getD 0 0#8).toNat
            else 256 * (bytes.getD 0 0#8).toNat + (bytes.getD 1 0#8).toNat)
        ∧ d.system = (if internal then some (bytes.getD 1 0#8) else none)
        ∧ d.samples.map (fun x => (x.id.val, x.val.toNat)) = framePairs s.cfg f swap bytes
        ∧ d.samples.length + d.discarded = 7)

/-- R141: ShortBuffer is raised by DEC of fewer than 16 bytes, and by nothing else. -/
def Obligations.ShortBufferIsDecsAlone : Prop :=
  (∀ (s : State) (f : Format) (internal swap : Bool) (bytes : List Byte), bytes.length < 16 →
      exec (.dec f internal swap bytes) s = .next { s with response := some ⟨.shortBuffer, .none⟩ })
  ∧ ∀ (i : Instr) (s t : State) (result : Result), operation i = true → exec i s = .next t →
      t.response = some ⟨.shortBuffer, result⟩ →
        ∃ f internal swap bytes, i = .dec f internal swap bytes ∧ bytes.length < 16

/-- R92, R93: ENC of up to seven samples always ends with OK, OUT holds the encoded frame of its operands, and nothing else
changes; no offset beyond OUT's 16 bytes does. More samples cannot be expressed and are refused (R62). -/
def Obligations.EncWritesTheFrame : Prop :=
  ∀ (s : State) (f : Format) (internal swap : Bool) (fades : Fades) (system : Byte) (samples : List Sample),
    (samples.length ≤ 7 → Memory.wf s.out →
      ∃ t, exec (.enc f internal swap fades system samples) s = .next t
        ∧ t = { s with out := t.out, response := some ⟨.ok, .out⟩ }
        ∧ outHolds s.cfg t.out samples fades system internal f swap
        ∧ ∀ a, 16 ≤ a → Memory.read t.out a = Memory.read s.out a)
    ∧ (7 < samples.length → exec (.enc f internal swap fades system samples) s = .refused (.illTyped .tooManySamples))

/-- R94: ENCP encodes channels 0..6 under the control fields into OUT, channel `i` in slot `i`; nothing else changes. -/
def Obligations.EncpSendsThePrimaryChannels : Prop :=
  ∀ (s : State) (fades : Fades), Memory.wf s.out →
    ∃ t, exec (.encp fades) s = .next t
      ∧ t = { s with out := t.out, response := some ⟨.ok, .out⟩ }
      ∧ outHolds s.cfg t.out
          [⟨0, s.raw[0]⟩, ⟨1, s.raw[1]⟩, ⟨2, s.raw[2]⟩, ⟨3, s.raw[3]⟩, ⟨4, s.raw[4]⟩, ⟨5, s.raw[5]⟩, ⟨6, s.raw[6]⟩]
          fades s.system s.internal s.format s.swap
      ∧ ∀ a, 16 ≤ a → Memory.read t.out a = Memory.read s.out a

/-- R95: ENCA encodes channels 7..11 under the control fields into OUT, in slots 0..4, and fillers in slots 5 and 6; nothing
else changes. -/
def Obligations.EncaSendsTheAuxiliaryChannels : Prop :=
  ∀ (s : State) (fades : Fades), Memory.wf s.out →
    ∃ t, exec (.enca fades) s = .next t
      ∧ t = { s with out := t.out, response := some ⟨.ok, .out⟩ }
      ∧ outHolds s.cfg t.out [⟨7, s.raw[7]⟩, ⟨8, s.raw[8]⟩, ⟨9, s.raw[9]⟩, ⟨10, s.raw[10]⟩, ⟨11, s.raw[11]⟩]
          fades s.system s.internal s.format s.swap
      ∧ ∀ a, 16 ≤ a → Memory.read t.out a = Memory.read s.out a

/-- R96: decoding an encoded frame with the same Format, header layout and swap gives the samples back in their order, the
system byte of an internal header, and the fades count (its low byte in an internal header, R168), with either byte-lane
order; values must fit the Format's field. -/
def Obligations.DecodeOfEncodedFrame : Prop :=
  ∀ (s : State) (f : Format) (internal swap : Bool) (fades : Fades) (system : Byte) (samples : List Sample),
    Memory.wf s.out → samples.length ≤ 7 → (∀ x ∈ samples, x.val.toNat ≤ (valMask f).toNat) →
      ∃ t, exec (.enc f internal swap fades system samples) s = .next t
        ∧ exec (.dec f internal swap (Memory.readBytes t.out 0 16)) t = .next { t with response := some ⟨.ok, .decoded
            { fades := if internal then fades &&& 0x00FF#16 else fades
              system := if internal then some system else none
              samples := samples
              discarded := 7 - samples.length }⟩ }

/-- R55: the fields of a slot word by mask and shift are its bit fields of R53 and R54, and lie in their ranges. -/
def Obligations.ExtractionReadsTheFields : Prop :=
  ∀ (f : Format) (w : SlotWord),
    slotId f w = fieldId f w.toNat ∧ (slotVal f w).toNat = fieldVal f w.toNat
    ∧ slotId .compact w ≤ 63 ∧ (slotVal .compact w).toNat ≤ 1023
    ∧ slotId .extended w ≤ 15 ∧ (slotVal .extended w).toNat ≤ 2047

/-- R56: an inserted slot word is the id in its field, the value cut to its field and nothing else; extraction gives the id
and the cut value back. -/
def Obligations.InsertionThenExtraction : Prop :=
  ∀ (f : Format) (x : Sample),
    (insertSlot f x).toNat = sampleNumber f x
    ∧ slotId f (insertSlot f x) = x.id.val
    ∧ slotVal f (insertSlot f x) = x.val &&& (valMask f).setWidth 11

/-- R58: bit 15 makes no difference under Extended; under Compact it makes the channelId 32 or more, and the slot is
discarded. -/
def Obligations.Bit15OfASlot : Prop :=
  ∀ w : SlotWord,
    slotId .extended (w ||| 0x8000#16) = slotId .extended w
    ∧ slotVal .extended (w ||| 0x8000#16) = slotVal .extended w
    ∧ slotSample .extended (w ||| 0x8000#16) = slotSample .extended w
    ∧ 32 ≤ slotId .compact (w ||| 0x8000#16)
    ∧ slotSample .compact (w ||| 0x8000#16) = none

/-- R59: the filler is discarded in both Formats, and encode writes it, 0xFF 0xFF under either swap, in every slot position
that carries no sample. -/
def Obligations.FillerIsWrittenAndDiscarded : Prop :=
  (slotId .compact fillSlot = 63 ∧ slotId .extended fillSlot = 15 ∧ ∀ f, slotSample f fillSlot = none)
  ∧ ∀ (s : State) (f : Format) (internal swap : Bool) (fades : Fades) (system : Byte) (samples : List Sample),
      Memory.wf s.out → samples.length ≤ 7 →
        ∃ t, exec (.enc f internal swap fades system samples) s = .next t
          ∧ ∀ i, samples.length ≤ i → i < 7 →
              Memory.read t.out (2 + 2 * i) = 0xFF#8 ∧ Memory.read t.out (3 + 2 * i) = 0xFF#8

/-- R36, with the laws of R3's primitives: the slot word is the little-endian reading of its two bytes when NATIVE_LE xor SWAP is 1 and the
big-endian one when it is 0, so the wire-conformant setting SWAP = NATIVE_LE reads the wire; encode's bytes are the inverse;
`bswap16` is its own inverse and `native16` undoes `nativeBytes`. -/
def Obligations.SlotByteOrder : Prop :=
  ∀ (cfg : Config) (swap : Bool) (b0 b1 : Byte) (w : SlotWord),
    (slotWord cfg swap b0 b1).toNat = slotNumber cfg.nativeLE swap b0 b1
    ∧ (swap = cfg.nativeLE → (slotWord cfg swap b0 b1).toNat = 256 * b0.toNat + b1.toNat)
    ∧ slotWord cfg swap (slotBytes cfg swap w).1 (slotBytes cfg swap w).2 = w
    ∧ slotBytes cfg swap (slotWord cfg swap b0 b1) = (b0, b1)
    ∧ bswap16 (bswap16 w) = w
    ∧ native16 cfg (nativeBytes cfg w).1 (nativeBytes cfg w).2 = w
    ∧ (be16 b0 b1).toNat = 256 * b0.toNat + b1.toNat ∧ (le16 b0 b1).toNat = 256 * b1.toNat + b0.toNat
    ∧ (bswap16 w).toNat = 256 * (w.toNat % 256) + w.toNat / 256

/-- R44, R35: the header is read by the operand `isInternal` alone, whatever the Format and the swap are, and the two
readings of the same two bytes are `fades_ext = (fades_int << 8) | system_int`. -/
def Obligations.HeaderHasTwoReadings : Prop :=
  ∀ (s : State) (bytes : List Byte) (f f1 : Format) (swap swap1 : Bool), bytes.length = 16 →
    ∃ (di de : DecodedFrame) (sys : Byte),
      exec (.dec f true swap bytes) s = .next { s with response := some ⟨.ok, .decoded di⟩ }
      ∧ exec (.dec f1 false swap1 bytes) s = .next { s with response := some ⟨.ok, .decoded de⟩ }
      ∧ di.system = some sys ∧ de.system = none ∧ di.fades.toNat < 256
      ∧ de.fades = (di.fades <<< 8) ||| sys.setWidth 16

/-- R39: DEC, ENC, ENCP, ENCA, SCALE, DESCALE and CHRD leave the state of the block unchanged and are idempotent. -/
def Obligations.ReadOnlyOperationsAreIdempotent : Prop :=
  ∀ (i : Instr) (s t : State), readOnlyRow i = true → Memory.wf s.out → exec i s = .next t →
    t = { s with out := t.out, response := t.response } ∧ exec i t = .next t

/-! ## The stream -/

/-- R142: POLL with fewer than 16 bytes in RX raises ShortRead, decodes nothing, keeps the bytes, and leaves the next POLL
unaffected. -/
def Obligations.PollShortRead : Prop :=
  ∀ (s : State), s.rx.length < 16 →
    ∃ t, exec .poll s = .next t ∧ t = { s with response := some ⟨.shortRead, .none⟩ }
      ∧ ∀ bytes, exec .poll { t with rx := t.rx ++ bytes } = exec .poll { s with rx := s.rx ++ bytes }

/-- R110, R111, R120: POLL with 16 bytes or more ends with OK whatever the bytes are; in discard-stale mode it answers one
report and empties RX; in process-all mode it answers one report for each whole frame and leaves the bytes after the last
one. It writes the registers, SYSTEM, FORMAT and RX alone. -/
def Obligations.PollConsumesWholeFrames : Prop :=
  ∀ (s : State), 16 ≤ s.rx.length →
    ∃ t reports, exec .poll s = .next t
      ∧ t = { s with raw := t.raw, system := t.system, format := t.format, rx := t.rx,
                     response := some ⟨.ok, .reports reports⟩ }
      ∧ (s.procall = false → t.rx = [] ∧ reports.length = 1)
      ∧ (s.procall = true → t.rx = s.rx.drop (16 * (s.rx.length / 16)) ∧ reports.length = s.rx.length / 16)

/-- R164: in discard-stale mode every byte before the last 16 is thrown away undecoded: it makes no difference to what POLL
answers and leaves. -/
def Obligations.DiscardStaleKeepsTheFreshestFrame : Prop :=
  ∀ (s : State) (stale frame : List Byte), s.procall = false → frame.length = 16 →
    ∃ t, exec .poll { s with rx := frame } = .next t ∧ exec .poll { s with rx := stale ++ frame } = .next t

/-- R110, R111, R112 in process-all mode: POLL of a frame followed by other bytes is POLL of that frame and then POLL of the
other bytes, their reports in one sequence; with fewer than 16 bytes after it, they stay in RX. -/
def Obligations.ProcessAllTakesFramesInOrder : Prop :=
  ∀ (s : State) (frame rest : List Byte), s.procall = true → frame.length = 16 →
    ∃ t1 r1, exec .poll { s with rx := frame } = .next t1 ∧ t1.response = some ⟨.ok, .reports [r1]⟩
      ∧ (rest.length < 16 → exec .poll { s with rx := frame ++ rest } = .next { t1 with rx := rest })
      ∧ (16 ≤ rest.length →
          ∃ t2 rs, exec .poll { t1 with rx := rest } = .next t2 ∧ t2.response = some ⟨.ok, .reports rs⟩
            ∧ exec .poll { s with rx := frame ++ rest }
                = .next { t2 with response := some ⟨.ok, .reports (r1 :: rs)⟩ })

/-- R112 to R115, R117, R118, for one frame: the slots are decoded under the Format in force; each register holds the value
of the last kept slot that names it, else what it held; a known other system announced in internal mode is adopted with its
Format, after the samples are stored; the report says so. -/
def Obligations.PollIngestsOneFrame : Prop :=
  ∀ (s : State), s.rx.length = 16 →
    ∃ t r, exec .poll s = .next t
      ∧ t = { s with raw := t.raw, system := t.system, format := t.format, rx := [],
                     response := some ⟨.ok, .reports [r]⟩ }
      ∧ (∀ ch : Channel, t.raw[ch].toNat = lastNamed (framePairs s.cfg s.format s.swap s.rx) ch s.raw[ch].toNat)
      ∧ r.format = s.format
      ∧ r.stored = (framePairs s.cfg s.format s.swap s.rx).length ∧ r.stored + r.discarded = 7
      ∧ (s.internal = false → r.fades.toNat = 256 * (s.rx.getD 0 0#8).toNat + (s.rx.getD 1 0#8).toNat
          ∧ r.system = none ∧ r.valid = true ∧ r.adopted = false ∧ t.system = s.system ∧ t.format = s.format)
      ∧ (s.internal = true → r.fades.toNat = (s.rx.getD 0 0#8).toNat
          ∧ r.system = some (s.rx.getD 1 0#8) ∧ r.valid = known s.cfg (s.rx.getD 1 0#8)
          ∧ (s.rx.getD 1 0#8 ≠ s.system → known s.cfg (s.rx.getD 1 0#8) = true →
              r.adopted = true ∧ t.system = s.rx.getD 1 0#8 ∧ fmtOf s.cfg (s.rx.getD 1 0#8) = some t.format)
          ∧ (s.rx.getD 1 0#8 = s.system ∨ known s.cfg (s.rx.getD 1 0#8) = false →
              r.adopted = false ∧ t.system = s.system ∧ t.format = s.format))

/-- The overwrite order of R113 by slot positions: the register a slot names holds that slot's value afterwards when no later
slot names it; a register no slot names keeps its value. -/
def Obligations.LastSlotWins : Prop :=
  ∀ (s t : State) (ch : Channel), s.rx.length = 16 → exec .poll s = .next t →
    (∀ i < 7, fieldId s.format (frameSlotNumber s.cfg s.swap s.rx i) = ch.val →
      (∀ j < 7, i < j → fieldId s.format (frameSlotNumber s.cfg s.swap s.rx j) ≠ ch.val) →
        t.raw[ch].toNat = fieldVal s.format (frameSlotNumber s.cfg s.swap s.rx i))
    ∧ ((∀ i < 7, fieldId s.format (frameSlotNumber s.cfg s.swap s.rx i) ≠ ch.val) → t.raw[ch] = s.raw[ch])

/-- R116: an unknown system byte in internal mode: the frame's samples are stored all the same, SYSTEM and FORMAT keep their
values, the report is neither valid nor adopted, and POLL goes on to the next frame. -/
def Obligations.UnknownSystemKeepsTheConfiguration : Prop :=
  ∀ (s : State) (frame rest : List Byte), s.internal = true → s.procall = true → frame.length = 16 →
    known s.cfg (frame.getD 1 0#8) = false →
      ∃ t1 r1, exec .poll { s with rx := frame } = .next t1
        ∧ t1.response = some ⟨.ok, .reports [r1]⟩
        ∧ r1.valid = false ∧ r1.adopted = false ∧ r1.stored = (framePairs s.cfg s.format s.swap frame).length
        ∧ t1.system = s.system ∧ t1.format = s.format
        ∧ (∀ ch : Channel, t1.raw[ch].toNat = lastNamed (framePairs s.cfg s.format s.swap frame) ch s.raw[ch].toNat)
        ∧ ∃ t rs, exec .poll { s with rx := frame ++ rest } = .next t
            ∧ t.response = some ⟨.ok, .reports (r1 :: rs)⟩ ∧ rs.length = rest.length / 16

/-- R117: the frame that announces a new system is decoded under the old Format, and the next frame of the same POLL under
the new one. -/
def Obligations.AdoptedFormatAppliesFromTheNextFrame : Prop :=
  ∀ (s : State) (frame next : List Byte) (f : Format), s.internal = true → s.procall = true →
    frame.length = 16 → next.length = 16 → frame.getD 1 0#8 ≠ s.system → fmtOf s.cfg (frame.getD 1 0#8) = some f →
      ∃ t r1 r2, exec .poll { s with rx := frame ++ next } = .next t
        ∧ t.response = some ⟨.ok, .reports [r1, r2]⟩
        ∧ r1.adopted = true
        ∧ r1.format = s.format ∧ r1.stored = (framePairs s.cfg s.format s.swap frame).length
        ∧ r2.format = f ∧ r2.stored = (framePairs s.cfg f s.swap next).length

/-- R114, R115: in external mode POLL never changes SYSTEM or FORMAT, and every report is valid, carries no system and was
decoded under the one Format. -/
def Obligations.ExternalModeNeverAdopts : Prop :=
  ∀ (s t : State) (reports : List FrameReport), s.internal = false → exec .poll s = .next t →
    t.system = s.system ∧ t.format = s.format
    ∧ (t.response = some ⟨.ok, .reports reports⟩ →
        ∀ r ∈ reports, r.valid = true ∧ r.adopted = false ∧ r.system = none ∧ r.format = s.format)

/-- R118, R114: every report of every POLL accounts for seven slots, carries a system byte exactly in internal mode, is valid
exactly when that byte is known or the mode is external, and is adopted only when valid. -/
def Obligations.ReportsAccountForTheirFrame : Prop :=
  ∀ (s t : State) (reports : List FrameReport), exec .poll s = .next t → t.response = some ⟨.ok, .reports reports⟩ →
    ∀ r ∈ reports, r.stored + r.discarded = 7
      ∧ (s.internal = false → r.system = none ∧ r.valid = true)
      ∧ (s.internal = true → r.fades.toNat < 256 ∧ ∃ sys, r.system = some sys ∧ r.valid = known s.cfg sys)
      ∧ (r.adopted = true → r.valid = true ∧ s.internal = true)

/-- A peer that receives both batches of a block, with the same Format, header layout, effective byte order and system, has
the block's registers afterwards, each cut to the Format's value field (R94, R95, R96, R111, R167). -/
def Obligations.BothBatchesRestoreAPeersRegisters : Prop :=
  ∀ (s s1 s2 r : State) (fades fades1 : Fades), Memory.wf s.out →
    exec (.encp fades) s = .next s1 → exec (.enca fades1) s1 = .next s2 →
    r.format = s.format → r.internal = s.internal → r.system = s.system →
    (r.cfg.nativeLE != r.swap) = (s.cfg.nativeLE != s.swap) → r.procall = true →
      ∃ t, exec .poll { r with rx := Memory.readBytes s1.out 0 16 ++ Memory.readBytes s2.out 0 16 } = .next t
        ∧ t.rx = [] ∧ t.system = r.system ∧ t.format = r.format
        ∧ ∀ ch : Channel, t.raw[ch] = s.raw[ch] &&& (valMask s.format).setWidth 11

/-! ## The configuration operations -/

/-- R130: SETSYS of a known system writes SYSTEM, its Format and INTERNAL, and nothing else, and is idempotent; of any other
it raises UnknownSystem with the rejected identifier and writes nothing. -/
def Obligations.SetsysSetsAKnownSystem : Prop :=
  ∀ (s : State) (sys : Byte) (internal : Bool),
    (∀ f, fmtOf s.cfg sys = some f →
      ∃ t, exec (.setsys sys internal) s = .next t
        ∧ t = { s with system := sys, format := f, internal := internal, response := some ⟨.ok, .none⟩ }
        ∧ exec (.setsys sys internal) t = .next t)
    ∧ (known s.cfg sys = false →
      exec (.setsys sys internal) s = .next { s with response := some ⟨.unknownSystem sys, .none⟩ })

/-- R131: SETOPT writes SWAP and PROCALL, and nothing else, always with OK, and is idempotent. -/
def Obligations.SetoptSetsSwapAndProcall : Prop :=
  ∀ (s : State) (swap procall : Bool),
    ∃ t, exec (.setopt swap procall) s = .next t
      ∧ t = { s with swap := swap, procall := procall, response := some ⟨.ok, .none⟩ }
      ∧ exec (.setopt swap procall) t = .next t

/-- R132, R64: SETMODE is the SETSYS of its row of BIND_TABLE; in an instance it never raises, and it is idempotent and
changes nothing but SYSTEM, FORMAT and INTERNAL. -/
def Obligations.SetmodeIsItsSetsys : Prop :=
  ∀ (s : State) (m : Fin 8),
    exec (.setmode m) s = exec (.setsys s.cfg.bindTable[m].system s.cfg.bindTable[m].internal) s
    ∧ (s.cfg.wf = true →
      ∃ t f, exec (.setmode m) s = .next t
        ∧ fmtOf s.cfg s.cfg.bindTable[m].system = some f
        ∧ t = { s with system := s.cfg.bindTable[m].system, format := f, internal := s.cfg.bindTable[m].internal,
                       response := some ⟨.ok, .none⟩ }
        ∧ exec (.setmode m) t = .next t)

/-! ## The wire forms -/

/-- The arrival of a wire word appends its two bytes to RX, the high byte first, and changes nothing else; the bytes are the
fields of R51 to R54 and R59. That a wire form's meaning is its arrival is the model's choice (log 12). -/
def Obligations.WireWordsArriveHighByteFirst : Prop :=
  ∀ (s : State),
    (∀ fades system, exec (.hdrInt fades system) s = .next { s with rx := s.rx ++ [fades, system] })
    ∧ (∀ fades, ∃ b0 b1 : Byte, exec (.hdrExt fades) s = .next { s with rx := s.rx ++ [b0, b1] }
        ∧ 256 * b0.toNat + b1.toNat = fades.toNat)
    ∧ (∀ c v, ∃ b0 b1 : Byte, exec (.slotC c v) s = .next { s with rx := s.rx ++ [b0, b1] }
        ∧ 256 * b0.toNat + b1.toNat = 1024 * c.toNat + v.toNat)
    ∧ (∀ x c v, ∃ b0 b1 : Byte, exec (.slotX x c v) s = .next { s with rx := s.rx ++ [b0, b1] }
        ∧ 256 * b0.toNat + b1.toNat = 32768 * x.toNat + 2048 * c.toNat + v.toNat)
    ∧ exec .slotFill s = .next { s with rx := s.rx ++ [0xFF#8, 0xFF#8] }

/-- Whichever row a wire word is read by, the step is the arrival of the same two bytes. That single wire words are presented,
and that presenting one is its arrival, is the model's choice (log 12), as is the list of inputs (log 2). It agrees with R60:
nothing in a frame says which layout it uses. -/
def Obligations.LayoutOfAWireWordMakesNoDifference : Prop :=
  ∀ (s : State) (kind : WireKind) (b0 b1 : Byte) (rest : List Input),
    s.inputs = .present (.wire kind b0 b1) :: rest →
      step s = .next { s with inputs := rest, rx := s.rx ++ [b0, b1] }

/-- A header word and seven slot words of the layouts INTERNAL and FORMAT select, arriving in order at
an empty RX of a block in the wire-conformant setting (R37), and then POLL: the report carries the header's fields, and each
register holds the rawValue of the last slot whose channelId names it, else what it held. The fields are those of R50 to R54,
R57 and R59; the arrival of single words, and that a wire form's meaning is its arrival, is the model's choice (log 12). -/
def Obligations.WordsThenPollReadTheirFields : Prop :=
  ∀ (s : State) (header : Instr) (slots : List Instr) (fields : List (Nat × Nat)) (system : Option Byte),
    s.rx = [] → s.swap = s.cfg.nativeLE → headerWord s.internal system header →
    slots.length = 7 → List.Forall₂ (slotFields s.format) slots fields →
      ∃ t0 t r, execAll (header :: slots) s = .next t0
        ∧ exec .poll t0 = .next t
        ∧ t.response = some ⟨.ok, .reports [r]⟩
        ∧ wireFades header = some r.fades.toNat
        ∧ r.system = system
        ∧ r.stored = (fields.filter (fun p => p.1 < 12)).length
        ∧ ∀ ch : Channel, t.raw[ch].toNat = lastNamed (fields.filter (fun p => p.1 < 12)) ch s.raw[ch].toNat
end

