-- ==== Sys2Proof/Laws/Bytes.lean ====
section
/-! SUPPORT. Byte order: the words and bytes of R3 and R36 as numbers, and that each reading undoes its writing. -/

namespace Sys2Proof

/-- A concatenation as a number. -/
theorem append_toNat {m n : Nat} (x : BitVec m) (y : BitVec n) : (x ++ y).toNat = x.toNat * 2 ^ n + y.toNat := by
  rw [BitVec.toNat_append, ← Nat.shiftLeft_add_eq_or_of_lt y.isLt, Nat.shiftLeft_eq]

/-- A word put together by shift and or, as a number. -/
theorem shift_or_toNat {w : Nat} (x y : BitVec w) (n : Nat) (hx : x.toNat * 2 ^ n < 2 ^ w) (hy : y.toNat < 2 ^ n) :
    ((x <<< n) ||| y).toNat = x.toNat * 2 ^ n + y.toNat := by
  rw [BitVec.toNat_or, BitVec.toNat_shiftLeft, Nat.shiftLeft_eq, Nat.mod_eq_of_lt hx, ← Nat.shiftLeft_eq,
    ← Nat.shiftLeft_add_eq_or_of_lt hy]

theorem be16_toNat (b0 b1 : Byte) : (be16 b0 b1).toNat = 256 * b0.toNat + b1.toNat := by
  have h0 := b0.isLt
  have h1 := b1.isLt
  rw [be16, shift_or_toNat _ _ 8 (by simp; omega) (by simp; omega)]
  simp
  omega

theorem le16_toNat (b0 b1 : Byte) : (le16 b0 b1).toNat = 256 * b1.toNat + b0.toNat := be16_toNat b1 b0

theorem loByte_toNat (w : SlotWord) : (loByte w).toNat = w.toNat % 256 := by
  simp [loByte]

theorem hiByte_toNat (w : SlotWord) : (hiByte w).toNat = w.toNat / 256 := by
  have h := w.isLt
  simp [hiByte, Nat.shiftRight_eq_div_pow]
  omega

@[simp] theorem be16_hi_lo (w : SlotWord) : be16 (hiByte w) (loByte w) = w := by
  apply BitVec.eq_of_toNat_eq
  rw [be16_toNat, hiByte_toNat, loByte_toNat]
  omega

@[simp] theorem le16_lo_hi (w : SlotWord) : le16 (loByte w) (hiByte w) = w := be16_hi_lo w

@[simp] theorem loByte_be16 (b0 b1 : Byte) : loByte (be16 b0 b1) = b1 := by
  apply BitVec.eq_of_toNat_eq
  have := b1.isLt
  rw [loByte_toNat, be16_toNat]
  omega

@[simp] theorem hiByte_be16 (b0 b1 : Byte) : hiByte (be16 b0 b1) = b0 := by
  apply BitVec.eq_of_toNat_eq
  have := b1.isLt
  rw [hiByte_toNat, be16_toNat]
  omega

@[simp] theorem loByte_le16 (b0 b1 : Byte) : loByte (le16 b0 b1) = b0 := loByte_be16 b1 b0

@[simp] theorem hiByte_le16 (b0 b1 : Byte) : hiByte (le16 b0 b1) = b1 := hiByte_be16 b1 b0

/-- A T value is read back from its four bytes. -/
@[simp] theorem le32_bytes32 (t : TVal) :
    le32 (t.extractLsb' 0 8) (t.extractLsb' 8 8) (t.extractLsb' 16 8) (t.extractLsb' 24 8) = t := by
  apply BitVec.eq_of_toNat_eq
  have h : (le32 (t.extractLsb' 0 8) (t.extractLsb' 8 8) (t.extractLsb' 16 8) (t.extractLsb' 24 8)).toNat
      = ((t.extractLsb' 24 8) ++ (t.extractLsb' 16 8)).toNat * 2 ^ (8 + 8)
        + ((t.extractLsb' 8 8) ++ (t.extractLsb' 0 8)).toNat := append_toNat _ _
  rw [append_toNat, append_toNat] at h
  rw [h]
  have := t.isLt
  simp only [BitVec.extractLsb'_toNat, Nat.shiftRight_eq_div_pow]
  omega

namespace Machine

/-- The byte swap exchanges the two bytes (R3). -/
theorem bswap16_eq (w : SlotWord) : bswap16 w = be16 (loByte w) (hiByte w) := by
  apply BitVec.eq_of_getLsbD_eq
  intro i hi
  interval_cases i <;> simp [bswap16, be16, loByte, hiByte]

@[simp] theorem bswap16_be16 (b0 b1 : Byte) : bswap16 (be16 b0 b1) = le16 b0 b1 := by
  rw [bswap16_eq, loByte_be16, hiByte_be16]; rfl

@[simp] theorem bswap16_le16 (b0 b1 : Byte) : bswap16 (le16 b0 b1) = be16 b0 b1 := bswap16_be16 b1 b0

@[simp] theorem bswap16_bswap16 (w : SlotWord) : bswap16 (bswap16 w) = w := by
  rw [bswap16_eq w, bswap16_be16, le16_lo_hi]

@[simp] theorem swapIf_swapIf (swap : Bool) (w : SlotWord) : swapIf swap (swapIf swap w) = w := by
  cases swap <;> simp [swapIf]

@[simp] theorem native16_nativeBytes (cfg : Config) (w : SlotWord) :
    native16 cfg (nativeBytes cfg w).1 (nativeBytes cfg w).2 = w := by
  cases h : cfg.nativeLE <;> simp [native16, nativeBytes, h]

@[simp] theorem nativeBytes_native16 (cfg : Config) (b0 b1 : Byte) : nativeBytes cfg (native16 cfg b0 b1) = (b0, b1) := by
  cases h : cfg.nativeLE <;> simp [native16, nativeBytes, h]

/-- The slot word is read little-endian when NATIVE_LE xor SWAP is 1, big-endian when it is 0 (R36). -/
theorem slotWord_eq (cfg : Config) (swap : Bool) (b0 b1 : Byte) :
    slotWord cfg swap b0 b1 = if cfg.nativeLE != swap then le16 b0 b1 else be16 b0 b1 := by
  cases h : cfg.nativeLE <;> cases swap <;> simp [slotWord, swapIf, native16, h]

@[simp] theorem slotWord_slotBytes (cfg : Config) (swap : Bool) (w : SlotWord) :
    slotWord cfg swap (slotBytes cfg swap w).1 (slotBytes cfg swap w).2 = w := by
  simp [slotWord, slotBytes]

@[simp] theorem slotBytes_slotWord (cfg : Config) (swap : Bool) (b0 b1 : Byte) :
    slotBytes cfg swap (slotWord cfg swap b0 b1) = (b0, b1) := by
  simp [slotWord, slotBytes]

end Machine

end Sys2Proof
end

