-- ==== Sys2Proof/Laws/Memory.lean ====
section
/-! SUPPORT. The memory OUT: a read after a write, and the canonical form that every write keeps. -/

namespace Sys2Proof.Machine

@[simp] theorem Memory.read_nil (a : Nat) : Memory.read [] a = 0#8 := rfl

/-- In a memory whose offsets are all above `a`, offset `a` is unlisted. -/
theorem Memory.read_of_lt (m : Memory) (a : Nat) (h : ∀ x ∈ m, a < x.1) : Memory.read m a = 0#8 := by
  induction m with
  | nil => rfl
  | cons x m ih =>
      have hx : ¬ x.1 = a := by have := h x (by simp); omega
      rw [Memory.read, if_neg hx]
      exact ih (fun y hy => h y (by simp [hy]))

/-- Every cell a write leaves is an old one or the written one. -/
theorem Memory.mem_write (m : Memory) (a : Nat) (b : Byte) (x : Host.Cell) (h : x ∈ Memory.write m a b) :
    x ∈ m ∨ (x = (a, b) ∧ b ≠ 0#8) := by
  induction m with
  | nil =>
      rw [Memory.write] at h
      split at h
      · simp at h
      · rename_i hb
        exact .inr ⟨by simpa using h, hb⟩
  | cons y m ih =>
      rw [Memory.write] at h
      split at h
      · rcases List.mem_cons.1 h with rfl | h
        · exact .inl (by simp)
        · rcases ih h with h | h
          · exact .inl (by simp [h])
          · exact .inr h
      · split at h
        · split at h
          · exact .inl (by simp [h])
          · rename_i hb
            rcases List.mem_cons.1 h with rfl | h
            · exact .inr ⟨rfl, hb⟩
            · exact .inl (by simp [h])
        · split at h
          · exact .inl h
          · rename_i hb
            rcases List.mem_cons.1 h with rfl | h
            · exact .inr ⟨rfl, hb⟩
            · exact .inl h

/-- A write keeps the canonical form. -/
theorem Memory.wf_write (m : Memory) (a : Nat) (b : Byte) (h : Memory.wf m) : Memory.wf (Memory.write m a b) := by
  refine ⟨?_, ?_⟩
  · replace h := h.1
    induction m with
    | nil => rw [Memory.write]; split <;> simp
    | cons y m ih =>
        obtain ⟨hy, hm⟩ := List.pairwise_cons.1 h
        rw [Memory.write]
        split
        · rename_i hlt
          refine List.pairwise_cons.2 ⟨fun x hx => ?_, ih hm⟩
          rcases Memory.mem_write m a b x hx with hx | ⟨rfl, -⟩
          · exact hy x hx
          · exact hlt
        · split
          · rename_i heq
            split
            · exact hm
            · exact List.pairwise_cons.2 ⟨fun x hx => by have := hy x hx; simp only; omega, hm⟩
          · split
            · exact h
            · refine List.pairwise_cons.2 ⟨fun x hx => ?_, h⟩
              rcases List.mem_cons.1 hx with rfl | hx
              · simp only; omega
              · have := hy x hx; simp only; omega
  · intro x hx
    rcases Memory.mem_write m a b x hx with hx | ⟨rfl, hb⟩
    · exact h.2 x hx
    · exact hb

/-- A write lands where it is aimed and nowhere else. -/
theorem Memory.read_write (m : Memory) (a : Nat) (b : Byte) (h : Memory.wf m) (k : Nat) :
    Memory.read (Memory.write m a b) k = if k = a then b else Memory.read m k := by
  replace h := h.1
  induction m with
  | nil =>
      rw [Memory.write]
      by_cases hb : b = 0#8
      · simp [hb]
      · simp [hb, Memory.read, eq_comm]
  | cons y m ih =>
      obtain ⟨hy, hm⟩ := List.pairwise_cons.1 h
      have above : ∀ c, c ≤ y.1 → Memory.read m c = 0#8 := fun c hc =>
        Memory.read_of_lt m c (fun x hx => by have := hy x hx; omega)
      rw [Memory.write]
      by_cases h1 : y.1 < a
      · rw [if_pos h1, Memory.read, Memory.read, ih hm]
        by_cases hk : y.1 = k
        · rw [if_pos hk, if_pos hk, if_neg (by omega)]
        · rw [if_neg hk, if_neg hk]
      · rw [if_neg h1]
        by_cases h2 : y.1 = a
        · rw [if_pos h2]
          by_cases hk : k = a
          · by_cases hb : b = 0#8
            · rw [if_pos hb, if_pos hk, hb, above k (by omega)]
            · rw [if_neg hb, Memory.read, if_pos hk.symm, if_pos hk]
          · by_cases hb : b = 0#8
            · rw [if_pos hb, if_neg hk, Memory.read, if_neg (by omega)]
            · rw [if_neg hb, Memory.read, if_neg (Ne.symm hk), if_neg hk, Memory.read, if_neg (by omega)]
        · rw [if_neg h2]
          by_cases hb : b = 0#8
          · rw [if_pos hb]
            by_cases hk : k = a
            · rw [if_pos hk, Memory.read, if_neg (by omega), above k (by omega), hb]
            · rw [if_neg hk]
          · rw [if_neg hb, Memory.read]
            by_cases hk : k = a
            · rw [if_pos hk.symm, if_pos hk]
            · rw [if_neg (Ne.symm hk), if_neg hk]

/-- `MemWrite` keeps the canonical form. -/
theorem Memory.wf_writeBytes (bytes : List Byte) (m : Memory) (off : Nat) (h : Memory.wf m) :
    Memory.wf (Memory.writeBytes m off bytes) := by
  induction bytes generalizing m off with
  | nil => exact h
  | cons b bytes ih => exact ih _ _ (Memory.wf_write m off b h)

/-- `MemWrite` writes the bytes at its offsets and no other byte. -/
theorem Memory.read_writeBytes (bytes : List Byte) (m : Memory) (off : Nat) (h : Memory.wf m) (k : Nat) :
    Memory.read (Memory.writeBytes m off bytes) k =
      if off ≤ k ∧ k < off + bytes.length then bytes.getD (k - off) 0#8 else Memory.read m k := by
  induction bytes generalizing m off with
  | nil => simp [Memory.writeBytes]
  | cons b bytes ih =>
      rw [Memory.writeBytes, ih _ _ (Memory.wf_write m off b h), Memory.read_write m off b h]
      by_cases hk : k = off
      · subst hk; simp
      · by_cases hr : off + 1 ≤ k ∧ k < off + 1 + bytes.length
        · have e : k - off = (k - (off + 1)) + 1 := by omega
          rw [if_pos hr, if_pos (by simp; omega), e, List.getD_cons_succ]
        · rw [if_neg hr, if_neg hk, if_neg (by simp; omega)]

/-- Every cell `MemWrite` leaves is an old one or at one of its offsets. -/
theorem Memory.mem_writeBytes (bytes : List Byte) (m : Memory) (off : Nat) (x : Host.Cell)
    (h : x ∈ Memory.writeBytes m off bytes) : x ∈ m ∨ (off ≤ x.1 ∧ x.1 < off + bytes.length) := by
  induction bytes generalizing m off with
  | nil => exact .inl h
  | cons b bytes ih =>
      rcases ih _ _ h with h | ⟨h1, h2⟩
      · rcases Memory.mem_write m off b x h with h | ⟨rfl, -⟩
        · exact .inl h
        · exact .inr (by simp)
      · exact .inr (by simp; omega)

/-- The memory after reset has the canonical form. -/
theorem Memory.wf_construct (cfg : Config) : Memory.wf (State.construct cfg).out := by
  simp [State.construct, Memory.wf]

end Sys2Proof.Machine
end

