-- ==== Sys2Proof/Laws/State.lean ====
section
/-! SUPPORT. One lemma per field of State and named update of it, each true by rfl. -/

namespace Sys2Proof.Machine

variable (s : State)

/-! ## respond -/

@[simp] theorem State.respond_raw (status : Status) (result : Result) : (s.respond status result).raw = s.raw := rfl
@[simp] theorem State.respond_system (status : Status) (result : Result) : (s.respond status result).system = s.system := rfl
@[simp] theorem State.respond_format (status : Status) (result : Result) : (s.respond status result).format = s.format := rfl
@[simp] theorem State.respond_internal (status : Status) (result : Result) : (s.respond status result).internal = s.internal := rfl
@[simp] theorem State.respond_swap (status : Status) (result : Result) : (s.respond status result).swap = s.swap := rfl
@[simp] theorem State.respond_procall (status : Status) (result : Result) : (s.respond status result).procall = s.procall := rfl
@[simp] theorem State.respond_inMin (status : Status) (result : Result) : (s.respond status result).inMin = s.inMin := rfl
@[simp] theorem State.respond_inMax (status : Status) (result : Result) : (s.respond status result).inMax = s.inMax := rfl
@[simp] theorem State.respond_outMin (status : Status) (result : Result) : (s.respond status result).outMin = s.outMin := rfl
@[simp] theorem State.respond_outMax (status : Status) (result : Result) : (s.respond status result).outMax = s.outMax := rfl
@[simp] theorem State.respond_active (status : Status) (result : Result) : (s.respond status result).active = s.active := rfl
@[simp] theorem State.respond_rnd (status : Status) (result : Result) : (s.respond status result).rnd = s.rnd := rfl
@[simp] theorem State.respond_rx (status : Status) (result : Result) : (s.respond status result).rx = s.rx := rfl
@[simp] theorem State.respond_out (status : Status) (result : Result) : (s.respond status result).out = s.out := rfl
@[simp] theorem State.respond_response (status : Status) (result : Result) : (s.respond status result).response = some ⟨status, result⟩ := rfl
@[simp] theorem State.respond_inputs (status : Status) (result : Result) : (s.respond status result).inputs = s.inputs := rfl
@[simp] theorem State.respond_cfg (status : Status) (result : Result) : (s.respond status result).cfg = s.cfg := rfl

/-! ## writeRaw -/

@[simp] theorem State.writeRaw_raw (ch : Channel) (v : RawVal) : (s.writeRaw ch v).raw = s.raw.set ch v := rfl
@[simp] theorem State.writeRaw_system (ch : Channel) (v : RawVal) : (s.writeRaw ch v).system = s.system := rfl
@[simp] theorem State.writeRaw_format (ch : Channel) (v : RawVal) : (s.writeRaw ch v).format = s.format := rfl
@[simp] theorem State.writeRaw_internal (ch : Channel) (v : RawVal) : (s.writeRaw ch v).internal = s.internal := rfl
@[simp] theorem State.writeRaw_swap (ch : Channel) (v : RawVal) : (s.writeRaw ch v).swap = s.swap := rfl
@[simp] theorem State.writeRaw_procall (ch : Channel) (v : RawVal) : (s.writeRaw ch v).procall = s.procall := rfl
@[simp] theorem State.writeRaw_inMin (ch : Channel) (v : RawVal) : (s.writeRaw ch v).inMin = s.inMin := rfl
@[simp] theorem State.writeRaw_inMax (ch : Channel) (v : RawVal) : (s.writeRaw ch v).inMax = s.inMax := rfl
@[simp] theorem State.writeRaw_outMin (ch : Channel) (v : RawVal) : (s.writeRaw ch v).outMin = s.outMin := rfl
@[simp] theorem State.writeRaw_outMax (ch : Channel) (v : RawVal) : (s.writeRaw ch v).outMax = s.outMax := rfl
@[simp] theorem State.writeRaw_active (ch : Channel) (v : RawVal) : (s.writeRaw ch v).active = s.active := rfl
@[simp] theorem State.writeRaw_rnd (ch : Channel) (v : RawVal) : (s.writeRaw ch v).rnd = s.rnd := rfl
@[simp] theorem State.writeRaw_rx (ch : Channel) (v : RawVal) : (s.writeRaw ch v).rx = s.rx := rfl
@[simp] theorem State.writeRaw_out (ch : Channel) (v : RawVal) : (s.writeRaw ch v).out = s.out := rfl
@[simp] theorem State.writeRaw_response (ch : Channel) (v : RawVal) : (s.writeRaw ch v).response = s.response := rfl
@[simp] theorem State.writeRaw_inputs (ch : Channel) (v : RawVal) : (s.writeRaw ch v).inputs = s.inputs := rfl
@[simp] theorem State.writeRaw_cfg (ch : Channel) (v : RawVal) : (s.writeRaw ch v).cfg = s.cfg := rfl

/-! ## withSystem -/

@[simp] theorem State.withSystem_raw (system : Byte) (format : Format) : (s.withSystem system format).raw = s.raw := rfl
@[simp] theorem State.withSystem_system (system : Byte) (format : Format) : (s.withSystem system format).system = system := rfl
@[simp] theorem State.withSystem_format (system : Byte) (format : Format) : (s.withSystem system format).format = format := rfl
@[simp] theorem State.withSystem_internal (system : Byte) (format : Format) : (s.withSystem system format).internal = s.internal := rfl
@[simp] theorem State.withSystem_swap (system : Byte) (format : Format) : (s.withSystem system format).swap = s.swap := rfl
@[simp] theorem State.withSystem_procall (system : Byte) (format : Format) : (s.withSystem system format).procall = s.procall := rfl
@[simp] theorem State.withSystem_inMin (system : Byte) (format : Format) : (s.withSystem system format).inMin = s.inMin := rfl
@[simp] theorem State.withSystem_inMax (system : Byte) (format : Format) : (s.withSystem system format).inMax = s.inMax := rfl
@[simp] theorem State.withSystem_outMin (system : Byte) (format : Format) : (s.withSystem system format).outMin = s.outMin := rfl
@[simp] theorem State.withSystem_outMax (system : Byte) (format : Format) : (s.withSystem system format).outMax = s.outMax := rfl
@[simp] theorem State.withSystem_active (system : Byte) (format : Format) : (s.withSystem system format).active = s.active := rfl
@[simp] theorem State.withSystem_rnd (system : Byte) (format : Format) : (s.withSystem system format).rnd = s.rnd := rfl
@[simp] theorem State.withSystem_rx (system : Byte) (format : Format) : (s.withSystem system format).rx = s.rx := rfl
@[simp] theorem State.withSystem_out (system : Byte) (format : Format) : (s.withSystem system format).out = s.out := rfl
@[simp] theorem State.withSystem_response (system : Byte) (format : Format) : (s.withSystem system format).response = s.response := rfl
@[simp] theorem State.withSystem_inputs (system : Byte) (format : Format) : (s.withSystem system format).inputs = s.inputs := rfl
@[simp] theorem State.withSystem_cfg (system : Byte) (format : Format) : (s.withSystem system format).cfg = s.cfg := rfl

/-! ## withInternal -/

@[simp] theorem State.withInternal_raw (internal : Bool) : (s.withInternal internal).raw = s.raw := rfl
@[simp] theorem State.withInternal_system (internal : Bool) : (s.withInternal internal).system = s.system := rfl
@[simp] theorem State.withInternal_format (internal : Bool) : (s.withInternal internal).format = s.format := rfl
@[simp] theorem State.withInternal_internal (internal : Bool) : (s.withInternal internal).internal = internal := rfl
@[simp] theorem State.withInternal_swap (internal : Bool) : (s.withInternal internal).swap = s.swap := rfl
@[simp] theorem State.withInternal_procall (internal : Bool) : (s.withInternal internal).procall = s.procall := rfl
@[simp] theorem State.withInternal_inMin (internal : Bool) : (s.withInternal internal).inMin = s.inMin := rfl
@[simp] theorem State.withInternal_inMax (internal : Bool) : (s.withInternal internal).inMax = s.inMax := rfl
@[simp] theorem State.withInternal_outMin (internal : Bool) : (s.withInternal internal).outMin = s.outMin := rfl
@[simp] theorem State.withInternal_outMax (internal : Bool) : (s.withInternal internal).outMax = s.outMax := rfl
@[simp] theorem State.withInternal_active (internal : Bool) : (s.withInternal internal).active = s.active := rfl
@[simp] theorem State.withInternal_rnd (internal : Bool) : (s.withInternal internal).rnd = s.rnd := rfl
@[simp] theorem State.withInternal_rx (internal : Bool) : (s.withInternal internal).rx = s.rx := rfl
@[simp] theorem State.withInternal_out (internal : Bool) : (s.withInternal internal).out = s.out := rfl
@[simp] theorem State.withInternal_response (internal : Bool) : (s.withInternal internal).response = s.response := rfl
@[simp] theorem State.withInternal_inputs (internal : Bool) : (s.withInternal internal).inputs = s.inputs := rfl
@[simp] theorem State.withInternal_cfg (internal : Bool) : (s.withInternal internal).cfg = s.cfg := rfl

/-! ## withOptions -/

@[simp] theorem State.withOptions_raw (swap procall : Bool) : (s.withOptions swap procall).raw = s.raw := rfl
@[simp] theorem State.withOptions_system (swap procall : Bool) : (s.withOptions swap procall).system = s.system := rfl
@[simp] theorem State.withOptions_format (swap procall : Bool) : (s.withOptions swap procall).format = s.format := rfl
@[simp] theorem State.withOptions_internal (swap procall : Bool) : (s.withOptions swap procall).internal = s.internal := rfl
@[simp] theorem State.withOptions_swap (swap procall : Bool) : (s.withOptions swap procall).swap = swap := rfl
@[simp] theorem State.withOptions_procall (swap procall : Bool) : (s.withOptions swap procall).procall = procall := rfl
@[simp] theorem State.withOptions_inMin (swap procall : Bool) : (s.withOptions swap procall).inMin = s.inMin := rfl
@[simp] theorem State.withOptions_inMax (swap procall : Bool) : (s.withOptions swap procall).inMax = s.inMax := rfl
@[simp] theorem State.withOptions_outMin (swap procall : Bool) : (s.withOptions swap procall).outMin = s.outMin := rfl
@[simp] theorem State.withOptions_outMax (swap procall : Bool) : (s.withOptions swap procall).outMax = s.outMax := rfl
@[simp] theorem State.withOptions_active (swap procall : Bool) : (s.withOptions swap procall).active = s.active := rfl
@[simp] theorem State.withOptions_rnd (swap procall : Bool) : (s.withOptions swap procall).rnd = s.rnd := rfl
@[simp] theorem State.withOptions_rx (swap procall : Bool) : (s.withOptions swap procall).rx = s.rx := rfl
@[simp] theorem State.withOptions_out (swap procall : Bool) : (s.withOptions swap procall).out = s.out := rfl
@[simp] theorem State.withOptions_response (swap procall : Bool) : (s.withOptions swap procall).response = s.response := rfl
@[simp] theorem State.withOptions_inputs (swap procall : Bool) : (s.withOptions swap procall).inputs = s.inputs := rfl
@[simp] theorem State.withOptions_cfg (swap procall : Bool) : (s.withOptions swap procall).cfg = s.cfg := rfl

/-! ## withScaler -/

@[simp] theorem State.withScaler_raw (inMin inMax : InVal) (outMin outMax : TVal) : (s.withScaler inMin inMax outMin outMax).raw = s.raw := rfl
@[simp] theorem State.withScaler_system (inMin inMax : InVal) (outMin outMax : TVal) : (s.withScaler inMin inMax outMin outMax).system = s.system := rfl
@[simp] theorem State.withScaler_format (inMin inMax : InVal) (outMin outMax : TVal) : (s.withScaler inMin inMax outMin outMax).format = s.format := rfl
@[simp] theorem State.withScaler_internal (inMin inMax : InVal) (outMin outMax : TVal) : (s.withScaler inMin inMax outMin outMax).internal = s.internal := rfl
@[simp] theorem State.withScaler_swap (inMin inMax : InVal) (outMin outMax : TVal) : (s.withScaler inMin inMax outMin outMax).swap = s.swap := rfl
@[simp] theorem State.withScaler_procall (inMin inMax : InVal) (outMin outMax : TVal) : (s.withScaler inMin inMax outMin outMax).procall = s.procall := rfl
@[simp] theorem State.withScaler_inMin (inMin inMax : InVal) (outMin outMax : TVal) : (s.withScaler inMin inMax outMin outMax).inMin = inMin := rfl
@[simp] theorem State.withScaler_inMax (inMin inMax : InVal) (outMin outMax : TVal) : (s.withScaler inMin inMax outMin outMax).inMax = inMax := rfl
@[simp] theorem State.withScaler_outMin (inMin inMax : InVal) (outMin outMax : TVal) : (s.withScaler inMin inMax outMin outMax).outMin = outMin := rfl
@[simp] theorem State.withScaler_outMax (inMin inMax : InVal) (outMin outMax : TVal) : (s.withScaler inMin inMax outMin outMax).outMax = outMax := rfl
@[simp] theorem State.withScaler_active (inMin inMax : InVal) (outMin outMax : TVal) : (s.withScaler inMin inMax outMin outMax).active = true := rfl
@[simp] theorem State.withScaler_rnd (inMin inMax : InVal) (outMin outMax : TVal) : (s.withScaler inMin inMax outMin outMax).rnd = s.rnd := rfl
@[simp] theorem State.withScaler_rx (inMin inMax : InVal) (outMin outMax : TVal) : (s.withScaler inMin inMax outMin outMax).rx = s.rx := rfl
@[simp] theorem State.withScaler_out (inMin inMax : InVal) (outMin outMax : TVal) : (s.withScaler inMin inMax outMin outMax).out = s.out := rfl
@[simp] theorem State.withScaler_response (inMin inMax : InVal) (outMin outMax : TVal) : (s.withScaler inMin inMax outMin outMax).response = s.response := rfl
@[simp] theorem State.withScaler_inputs (inMin inMax : InVal) (outMin outMax : TVal) : (s.withScaler inMin inMax outMin outMax).inputs = s.inputs := rfl
@[simp] theorem State.withScaler_cfg (inMin inMax : InVal) (outMin outMax : TVal) : (s.withScaler inMin inMax outMin outMax).cfg = s.cfg := rfl

/-! ## receive -/

@[simp] theorem State.receive_raw (bytes : List Byte) : (s.receive bytes).raw = s.raw := rfl
@[simp] theorem State.receive_system (bytes : List Byte) : (s.receive bytes).system = s.system := rfl
@[simp] theorem State.receive_format (bytes : List Byte) : (s.receive bytes).format = s.format := rfl
@[simp] theorem State.receive_internal (bytes : List Byte) : (s.receive bytes).internal = s.internal := rfl
@[simp] theorem State.receive_swap (bytes : List Byte) : (s.receive bytes).swap = s.swap := rfl
@[simp] theorem State.receive_procall (bytes : List Byte) : (s.receive bytes).procall = s.procall := rfl
@[simp] theorem State.receive_inMin (bytes : List Byte) : (s.receive bytes).inMin = s.inMin := rfl
@[simp] theorem State.receive_inMax (bytes : List Byte) : (s.receive bytes).inMax = s.inMax := rfl
@[simp] theorem State.receive_outMin (bytes : List Byte) : (s.receive bytes).outMin = s.outMin := rfl
@[simp] theorem State.receive_outMax (bytes : List Byte) : (s.receive bytes).outMax = s.outMax := rfl
@[simp] theorem State.receive_active (bytes : List Byte) : (s.receive bytes).active = s.active := rfl
@[simp] theorem State.receive_rnd (bytes : List Byte) : (s.receive bytes).rnd = s.rnd := rfl
@[simp] theorem State.receive_rx (bytes : List Byte) : (s.receive bytes).rx = s.rx ++ bytes := rfl
@[simp] theorem State.receive_out (bytes : List Byte) : (s.receive bytes).out = s.out := rfl
@[simp] theorem State.receive_response (bytes : List Byte) : (s.receive bytes).response = s.response := rfl
@[simp] theorem State.receive_inputs (bytes : List Byte) : (s.receive bytes).inputs = s.inputs := rfl
@[simp] theorem State.receive_cfg (bytes : List Byte) : (s.receive bytes).cfg = s.cfg := rfl

/-! ## consume -/

@[simp] theorem State.consume_raw (n : Nat) : (s.consume n).raw = s.raw := rfl
@[simp] theorem State.consume_system (n : Nat) : (s.consume n).system = s.system := rfl
@[simp] theorem State.consume_format (n : Nat) : (s.consume n).format = s.format := rfl
@[simp] theorem State.consume_internal (n : Nat) : (s.consume n).internal = s.internal := rfl
@[simp] theorem State.consume_swap (n : Nat) : (s.consume n).swap = s.swap := rfl
@[simp] theorem State.consume_procall (n : Nat) : (s.consume n).procall = s.procall := rfl
@[simp] theorem State.consume_inMin (n : Nat) : (s.consume n).inMin = s.inMin := rfl
@[simp] theorem State.consume_inMax (n : Nat) : (s.consume n).inMax = s.inMax := rfl
@[simp] theorem State.consume_outMin (n : Nat) : (s.consume n).outMin = s.outMin := rfl
@[simp] theorem State.consume_outMax (n : Nat) : (s.consume n).outMax = s.outMax := rfl
@[simp] theorem State.consume_active (n : Nat) : (s.consume n).active = s.active := rfl
@[simp] theorem State.consume_rnd (n : Nat) : (s.consume n).rnd = s.rnd := rfl
@[simp] theorem State.consume_rx (n : Nat) : (s.consume n).rx = s.rx.drop n := rfl
@[simp] theorem State.consume_out (n : Nat) : (s.consume n).out = s.out := rfl
@[simp] theorem State.consume_response (n : Nat) : (s.consume n).response = s.response := rfl
@[simp] theorem State.consume_inputs (n : Nat) : (s.consume n).inputs = s.inputs := rfl
@[simp] theorem State.consume_cfg (n : Nat) : (s.consume n).cfg = s.cfg := rfl

/-! ## writeOut -/

@[simp] theorem State.writeOut_raw (frame : List Byte) : (s.writeOut frame).raw = s.raw := rfl
@[simp] theorem State.writeOut_system (frame : List Byte) : (s.writeOut frame).system = s.system := rfl
@[simp] theorem State.writeOut_format (frame : List Byte) : (s.writeOut frame).format = s.format := rfl
@[simp] theorem State.writeOut_internal (frame : List Byte) : (s.writeOut frame).internal = s.internal := rfl
@[simp] theorem State.writeOut_swap (frame : List Byte) : (s.writeOut frame).swap = s.swap := rfl
@[simp] theorem State.writeOut_procall (frame : List Byte) : (s.writeOut frame).procall = s.procall := rfl
@[simp] theorem State.writeOut_inMin (frame : List Byte) : (s.writeOut frame).inMin = s.inMin := rfl
@[simp] theorem State.writeOut_inMax (frame : List Byte) : (s.writeOut frame).inMax = s.inMax := rfl
@[simp] theorem State.writeOut_outMin (frame : List Byte) : (s.writeOut frame).outMin = s.outMin := rfl
@[simp] theorem State.writeOut_outMax (frame : List Byte) : (s.writeOut frame).outMax = s.outMax := rfl
@[simp] theorem State.writeOut_active (frame : List Byte) : (s.writeOut frame).active = s.active := rfl
@[simp] theorem State.writeOut_rnd (frame : List Byte) : (s.writeOut frame).rnd = s.rnd := rfl
@[simp] theorem State.writeOut_rx (frame : List Byte) : (s.writeOut frame).rx = s.rx := rfl
@[simp] theorem State.writeOut_out (frame : List Byte) : (s.writeOut frame).out = Memory.writeBytes s.out 0 frame := rfl
@[simp] theorem State.writeOut_response (frame : List Byte) : (s.writeOut frame).response = s.response := rfl
@[simp] theorem State.writeOut_inputs (frame : List Byte) : (s.writeOut frame).inputs = s.inputs := rfl
@[simp] theorem State.writeOut_cfg (frame : List Byte) : (s.writeOut frame).cfg = s.cfg := rfl

/-! ## withInputs -/

@[simp] theorem State.withInputs_raw (inputs : List Input) : (s.withInputs inputs).raw = s.raw := rfl
@[simp] theorem State.withInputs_system (inputs : List Input) : (s.withInputs inputs).system = s.system := rfl
@[simp] theorem State.withInputs_format (inputs : List Input) : (s.withInputs inputs).format = s.format := rfl
@[simp] theorem State.withInputs_internal (inputs : List Input) : (s.withInputs inputs).internal = s.internal := rfl
@[simp] theorem State.withInputs_swap (inputs : List Input) : (s.withInputs inputs).swap = s.swap := rfl
@[simp] theorem State.withInputs_procall (inputs : List Input) : (s.withInputs inputs).procall = s.procall := rfl
@[simp] theorem State.withInputs_inMin (inputs : List Input) : (s.withInputs inputs).inMin = s.inMin := rfl
@[simp] theorem State.withInputs_inMax (inputs : List Input) : (s.withInputs inputs).inMax = s.inMax := rfl
@[simp] theorem State.withInputs_outMin (inputs : List Input) : (s.withInputs inputs).outMin = s.outMin := rfl
@[simp] theorem State.withInputs_outMax (inputs : List Input) : (s.withInputs inputs).outMax = s.outMax := rfl
@[simp] theorem State.withInputs_active (inputs : List Input) : (s.withInputs inputs).active = s.active := rfl
@[simp] theorem State.withInputs_rnd (inputs : List Input) : (s.withInputs inputs).rnd = s.rnd := rfl
@[simp] theorem State.withInputs_rx (inputs : List Input) : (s.withInputs inputs).rx = s.rx := rfl
@[simp] theorem State.withInputs_out (inputs : List Input) : (s.withInputs inputs).out = s.out := rfl
@[simp] theorem State.withInputs_response (inputs : List Input) : (s.withInputs inputs).response = s.response := rfl
@[simp] theorem State.withInputs_inputs (inputs : List Input) : (s.withInputs inputs).inputs = inputs := rfl
@[simp] theorem State.withInputs_cfg (inputs : List Input) : (s.withInputs inputs).cfg = s.cfg := rfl

end Sys2Proof.Machine
end

