-- ==== Sys2Proof/Laws/Registers.lean ====
section
/-! SUPPORT. The register file: storing samples in order (R113). -/

namespace Sys2Proof.Machine

/-- Storing samples writes the register file alone. -/
theorem State.storeSamples_eq (s : State) (samples : List Sample) :
    s.storeSamples samples = { s with raw := (s.storeSamples samples).raw } := by
  induction samples generalizing s with
  | nil => rfl
  | cons x samples ih =>
      have h : s.storeSamples (x :: samples) = (s.writeRaw x.id x.val).storeSamples samples := rfl
      rw [h, ih (s.writeRaw x.id x.val)]
      rfl

/-- The register file after samples are stored depends on the register file before alone. -/
theorem State.storeSamples_raw (s : State) (samples : List Sample) :
    (s.storeSamples samples).raw = samples.foldl (fun r x => r.set x.id x.val) s.raw := by
  induction samples generalizing s with
  | nil => rfl
  | cons x samples ih => exact ih (s.writeRaw x.id x.val)

/-- One register after one write (R10). -/
theorem getElem_set_raw (r : Vector RawVal 12) (c ch : Channel) (v : RawVal) :
    (r.set c v)[ch] = if c = ch then v else r[ch] := by
  simp only [Fin.getElem_fin, Vector.getElem_set, Fin.ext_iff]

@[simp] theorem lastNamed_nil (ch : Channel) (old : Nat) : lastNamed [] ch old = old := rfl

theorem lastNamed_concat (pairs : List (Nat × Nat)) (p : Nat × Nat) (ch : Channel) (old : Nat) :
    lastNamed (pairs ++ [p]) ch old = if p.1 = ch.val then p.2 else lastNamed pairs ch old := by
  by_cases h : p.1 = ch.val
  · simp [lastNamed, List.filter_append, h]
  · simp [lastNamed, List.filter_append, h]

/-- What a register holds after samples are stored: the value of the last one that names it, else what it held (R113). -/
theorem State.storeSamples_getElem (s : State) (samples : List Sample) (ch : Channel) :
    ((s.storeSamples samples).raw[ch]).toNat =
      lastNamed (samples.map (fun x => (x.id.val, x.val.toNat))) ch s.raw[ch].toNat := by
  rw [State.storeSamples_raw]
  induction samples using List.reverseRecOn with
  | nil => rfl
  | append_singleton samples x ih =>
      rw [List.foldl_append, List.map_append, List.map_singleton, lastNamed_concat, ← ih]
      simp only [List.foldl_cons, List.foldl_nil, getElem_set_raw, Fin.ext_iff]
      split <;> rfl

end Sys2Proof.Machine
end

