-- ==== Sys2Proof/Laws/Slots.lean ====
section
/-! SUPPORT. The fields of a slot word: by mask and shift (R55, R56) and as numbers (R53, R54). -/

namespace Sys2Proof.Machine

/-- The slot word as a number (R36). -/
theorem slotWord_toNat (cfg : Config) (swap : Bool) (b0 b1 : Byte) :
    (slotWord cfg swap b0 b1).toNat = slotNumber cfg.nativeLE swap b0 b1 := by
  rw [slotWord_eq, slotNumber]
  split
  · exact le16_toNat b0 b1
  · exact be16_toNat b0 b1

/-- The channelId bits under Compact: 15:10. -/
theorem slotIdBits_compact (w : SlotWord) : (w &&& 0xFC00#16) >>> 10 = (w.extractLsb' 10 6).setWidth 16 := by
  apply BitVec.eq_of_getLsbD_eq
  intro i hi
  interval_cases i <;> simp

/-- The channelId bits under Extended: 14:11. -/
theorem slotIdBits_extended (w : SlotWord) : (w &&& 0x7800#16) >>> 11 = (w.extractLsb' 11 4).setWidth 16 := by
  apply BitVec.eq_of_getLsbD_eq
  intro i hi
  interval_cases i <;> simp

/-- The rawValue bits under Compact: 9:0. -/
theorem slotValBits_compact (w : SlotWord) : slotVal .compact w = (w.extractLsb' 0 10).setWidth 11 := by
  apply BitVec.eq_of_getLsbD_eq
  intro i hi
  interval_cases i <;> simp [slotVal, valMask]

/-- The rawValue bits under Extended: 10:0. -/
theorem slotValBits_extended (w : SlotWord) : slotVal .extended w = w.extractLsb' 0 11 := by
  apply BitVec.eq_of_getLsbD_eq
  intro i hi
  interval_cases i <;> simp [slotVal, valMask]

/-- The channelId field as a number (R53, R54). -/
theorem slotId_eq (f : Format) (w : SlotWord) : slotId f w = fieldId f w.toNat := by
  have h := w.isLt
  cases f
  · rw [slotId, idMask, shift, slotIdBits_compact, fieldId]
    simp [Nat.shiftRight_eq_div_pow]
    omega
  · rw [slotId, idMask, shift, slotIdBits_extended, fieldId]
    simp [Nat.shiftRight_eq_div_pow]
    omega

/-- The rawValue field as a number (R53, R54). -/
theorem slotVal_toNat (f : Format) (w : SlotWord) : (slotVal f w).toNat = fieldVal f w.toNat := by
  have h := w.isLt
  cases f
  · rw [slotValBits_compact, fieldVal]
    simp
    omega
  · rw [slotValBits_extended, fieldVal]
    simp

/-- What a slot contributes, as a pair of numbers (R55, R57). -/
theorem slotSample_pair (f : Format) (w : SlotWord) :
    (slotSample f w).map (fun x => (x.id.val, x.val.toNat)) =
      if fieldId f w.toNat < 12 then some (fieldId f w.toNat, fieldVal f w.toNat) else none := by
  by_cases h : slotId f w < 12
  · rw [slotSample, dif_pos h, if_pos (slotId_eq f w ▸ h)]
    simp [slotId_eq, slotVal_toNat]
  · rw [slotSample, dif_neg h, if_neg (slotId_eq f w ▸ h)]
    rfl

/-- A channel index has no bit 4, so its field in an Extended slot is not cut. -/
theorem channel_bit4 : ∀ id : Channel, (BitVec.ofNat 16 id.val)[4] = false := by decide

/-- An inserted slot word as a number (R56): the id in its field, the value cut to its field, nothing else. -/
theorem insertSlot_toNat (f : Format) (x : Sample) : (insertSlot f x).toNat = sampleNumber f x := by
  obtain ⟨id, val⟩ := x
  have hv := val.isLt
  have hid := id.isLt
  cases f
  · have e : insertSlot .compact ⟨id, val⟩ = (BitVec.ofNat 16 id.val <<< 10) ||| (val.extractLsb' 0 10).setWidth 16 := by
      apply BitVec.eq_of_getLsbD_eq
      intro i hi
      interval_cases i <;> simp [insertSlot, idMask, valMask, shift]
    rw [e, shift_or_toNat _ _ 10 (by simp; omega) (by simp; omega), sampleNumber]
    simp
    omega
  · have h4 := channel_bit4 id
    have e : insertSlot .extended ⟨id, val⟩ = (BitVec.ofNat 16 id.val <<< 11) ||| val.setWidth 16 := by
      apply BitVec.eq_of_getLsbD_eq
      intro i hi
      interval_cases i <;> simp [insertSlot, idMask, valMask, shift, h4]
    rw [e, shift_or_toNat _ _ 11 (by simp; omega) (by simp; omega), sampleNumber]
    simp
    omega

/-- Extraction reads the inserted id back (R56). -/
theorem slotId_insertSlot (f : Format) (x : Sample) : slotId f (insertSlot f x) = x.id.val := by
  have hv := x.val.isLt
  have hid := x.id.isLt
  rw [slotId_eq, insertSlot_toNat]
  cases f <;> simp only [fieldId, sampleNumber] <;> omega

/-- Extraction reads the inserted value back, cut to its field (R56). -/
theorem slotVal_insertSlot_toNat (f : Format) (x : Sample) :
    (slotVal f (insertSlot f x)).toNat = x.val.toNat % ((valMask f).toNat + 1) := by
  have hv := x.val.isLt
  have hid := x.id.isLt
  rw [slotVal_toNat, insertSlot_toNat]
  cases f
  · have : (valMask .compact).toNat = 1023 := rfl
    simp only [fieldVal, sampleNumber, this]; omega
  · have : (valMask .extended).toNat = 2047 := rfl
    simp only [fieldVal, sampleNumber, this]; omega

/-- An inserted sample whose value fits its field is the sample extracted (R56). -/
theorem slotSample_insertSlot (f : Format) (x : Sample) (h : x.val.toNat ≤ (valMask f).toNat) :
    slotSample f (insertSlot f x) = some x := by
  have hv : slotVal f (insertSlot f x) = x.val := by
    apply BitVec.eq_of_toNat_eq
    rw [slotVal_insertSlot_toNat, Nat.mod_eq_of_lt (by omega)]
  have hid := slotId_insertSlot f x
  rw [slotSample, dif_pos (by rw [hid]; exact x.id.isLt)]
  simp [hid, hv]

/-- The filler is discarded under both Formats (R59). -/
@[simp] theorem slotSample_fillSlot (f : Format) : slotSample f fillSlot = none := by
  cases f <;> decide

end Sys2Proof.Machine
end

