-- ==== Sys2Proof/Laws/Codec.lean ====
section
/-! SUPPORT. The codec: what decoding a frame yields (R91), the bytes encoding writes (R93), and OUT after an encode. -/

namespace Sys2Proof.Machine

/-- The kept and the dropped elements are all of them. -/
theorem length_filterMap_add_countP {α β : Type} (g : α → Option β) (l : List α) :
    (l.filterMap g).length + l.countP (fun a => (g a).isNone) = l.length := by
  induction l with
  | nil => rfl
  | cons a l ih =>
      cases h : g a <;> simp [h] <;> omega

/-- Kept and dropped slots are the seven of the frame (R91). -/
theorem decodeFrame_count (cfg : Config) (frame : List Byte) (f : Format) (internal swap : Bool) :
    (decodeFrame cfg frame f internal swap).samples.length + (decodeFrame cfg frame f internal swap).discarded = 7 :=
  length_filterMap_add_countP (slotSample f) (frameSlots cfg swap frame)

/-- The kept samples of a frame are its pairs below channel 12, in slot order (R55, R57, R91). -/
theorem decodeFrame_pairs (cfg : Config) (frame : List Byte) (f : Format) (internal swap : Bool) :
    (decodeFrame cfg frame f internal swap).samples.map (fun x => (x.id.val, x.val.toNat)) = framePairs cfg f swap frame := by
  have h : ∀ l : List Nat,
      ((l.map (fun i => slotWord cfg swap (byteAt frame (2 + 2 * i)) (byteAt frame (3 + 2 * i)))).filterMap
          (slotSample f)).map (fun x => (x.id.val, x.val.toNat)) =
        l.filterMap (fun i =>
          let n := frameSlotNumber cfg swap frame i
          if fieldId f n < 12 then some (fieldId f n, fieldVal f n) else none) := by
    intro l
    rw [List.filterMap_map, List.map_filterMap]
    congr 1
    funext i
    rw [Function.comp_apply, slotSample_pair, slotWord_toNat]
    rfl
  exact h slotIndices

/-- The header of an internal frame (R51). -/
theorem frameFades_internal (frame : List Byte) : (frameFades true frame).toNat = (frame.getD 0 0#8).toNat := by
  have := (byteAt frame 0).isLt
  simp [frameFades, byteAt]
  omega

/-- The header of an external frame (R52). -/
theorem frameFades_external (frame : List Byte) :
    (frameFades false frame).toNat = 256 * (frame.getD 0 0#8).toNat + (frame.getD 1 0#8).toNat :=
  be16_toNat _ _

/-- An encoded frame has 16 bytes (R93). -/
@[simp] theorem encodeFrame_length (cfg : Config) (samples : List Sample) (fades : Fades) (system : Byte) (internal : Bool)
    (f : Format) (swap : Bool) : (encodeFrame cfg samples fades system internal f swap).length = 16 := by
  cases internal <;> simp [encodeFrame, encodeHeader, slotIndices, slotByteList]

/-- The slot words of an encoded frame (R36, R93). -/
theorem frameSlots_encodeFrame (cfg : Config) (samples : List Sample) (fades : Fades) (system : Byte) (internal : Bool)
    (f : Format) (swap : Bool) :
    frameSlots cfg swap (encodeFrame cfg samples fades system internal f swap) =
      slotIndices.map (encodeSlot samples f) := by
  cases internal <;>
    simp [frameSlots, encodeFrame, encodeHeader, slotIndices, slotByteList, byteAt]

/-- The two bytes of slot `i` of an encoded frame (R36, R93). -/
theorem encodeFrame_slot (cfg : Config) (samples : List Sample) (fades : Fades) (system : Byte) (internal : Bool)
    (f : Format) (swap : Bool) (i : Nat) (h : i < 7) :
    (encodeFrame cfg samples fades system internal f swap).getD (2 + 2 * i) 0#8
        = (slotBytes cfg swap (encodeSlot samples f i)).1
    ∧ (encodeFrame cfg samples fades system internal f swap).getD (3 + 2 * i) 0#8
        = (slotBytes cfg swap (encodeSlot samples f i)).2 := by
  cases internal <;> interval_cases i <;> exact ⟨rfl, rfl⟩

/-- The samples of an encoded frame decode to themselves when their values fit the Format's field (R96). -/
theorem filterMap_encodeSlot (samples : List Sample) (f : Format) (hl : samples.length ≤ 7)
    (hv : ∀ x ∈ samples, x.val.toNat ≤ (valMask f).toNat) :
    (slotIndices.map (encodeSlot samples f)).filterMap (slotSample f) = samples := by
  rcases samples with _ | ⟨a, _ | ⟨b, _ | ⟨c, _ | ⟨d, _ | ⟨e, _ | ⟨g, _ | ⟨h, _ | ⟨i, l⟩⟩⟩⟩⟩⟩⟩⟩ <;>
    simp_all [slotIndices, encodeSlot, slotSample_insertSlot]
  omega

/-- The number in slot `i` of an encoded frame (R53, R54, R56, R59). -/
theorem encodeSlot_toNat (samples : List Sample) (f : Format) (i : Nat) :
    (encodeSlot samples f i).toNat = (samples[i]?.map (sampleNumber f)).getD 0xFFFF := by
  rw [encodeSlot]
  cases samples[i]? with
  | none => rfl
  | some x => exact insertSlot_toNat f x

/-- OUT after a frame is written to it holds the frame (R93). -/
theorem outHolds_writeBytes (cfg : Config) (m : Memory) (hm : Memory.wf m) (samples : List Sample) (fades : Fades)
    (system : Byte) (internal : Bool) (f : Format) (swap : Bool) :
    outHolds cfg (Memory.writeBytes m 0 (encodeFrame cfg samples fades system internal f swap)) samples fades system
      internal f swap := by
  have rd : ∀ k, k < 16 → Memory.read (Memory.writeBytes m 0 (encodeFrame cfg samples fades system internal f swap)) k
      = (encodeFrame cfg samples fades system internal f swap).getD k 0#8 := by
    intro k hk
    rw [Memory.read_writeBytes _ _ _ hm, if_pos (by simp; omega), Nat.sub_zero]
  refine ⟨?_, ?_, ?_⟩
  · rintro rfl
    rw [rd 0 (by omega), rd 1 (by omega)]
    exact ⟨loByte_toNat fades, rfl⟩
  · rintro rfl
    rw [rd 0 (by omega), rd 1 (by omega)]
    exact ⟨hiByte_toNat fades, loByte_toNat fades⟩
  · intro i hi
    have h := encodeFrame_slot cfg samples fades system internal f swap i hi
    rw [rd _ (by omega), rd _ (by omega), h.1, h.2, ← slotWord_toNat, slotWord_slotBytes, encodeSlot_toNat]

/-- The offsets beyond a frame keep what they held. -/
theorem read_writeBytes_beyond (m : Memory) (hm : Memory.wf m) (frame : List Byte) (a : Nat) (h : frame.length ≤ a) :
    Memory.read (Memory.writeBytes m 0 frame) a = Memory.read m a := by
  rw [Memory.read_writeBytes _ _ _ hm, if_neg (by omega)]

/-- Bytes written are the bytes read back. -/
theorem Memory.readBytes_eq (m : Memory) (off : Nat) (bytes : List Byte)
    (h : ∀ k < bytes.length, Memory.read m (off + k) = bytes.getD k 0#8) :
    Memory.readBytes m off bytes.length = bytes := by
  induction bytes generalizing off with
  | nil => rfl
  | cons b bytes ih =>
      rw [List.length_cons, Memory.readBytes]
      have h0 := h 0 (by simp)
      rw [Nat.add_zero, List.getD_cons_zero] at h0
      rw [h0, ih (off + 1)]
      intro k hk
      have := h (k + 1) (by simp; omega)
      rwa [List.getD_cons_succ, show off + (k + 1) = off + 1 + k by omega] at this

/-- MemRead of OUT after MemWrite of a frame is the frame. -/
theorem readBytes_writeBytes (m : Memory) (hm : Memory.wf m) (frame : List Byte) :
    Memory.readBytes (Memory.writeBytes m 0 frame) 0 frame.length = frame := by
  apply Memory.readBytes_eq
  intro k hk
  rw [Memory.read_writeBytes _ _ _ hm, if_pos (by omega)]
  simp

/-- Two memories in canonical form that read alike are the same memory. -/
theorem Memory.ext_of_read : ∀ (m m1 : Memory), Memory.wf m → Memory.wf m1 →
    (∀ a, Memory.read m a = Memory.read m1 a) → m = m1
  | [], [], _, _, _ => rfl
  | [], (k, b) :: m1, _, h1, h => by
      have : 0#8 = b := by simpa [Memory.read] using h k
      exact absurd this.symm (h1.2 (k, b) (by simp))
  | (k, b) :: m, [], h0, _, h => by
      have : b = 0#8 := by simpa [Memory.read] using h k
      exact absurd this (h0.2 (k, b) (by simp))
  | (k, b) :: m, (k1, b1) :: m1, h0, h1, h => by
      obtain ⟨hm, hs⟩ := List.pairwise_cons.1 h0.1
      obtain ⟨hm1, hs1⟩ := List.pairwise_cons.1 h1.1
      have hb : b ≠ 0#8 := h0.2 (k, b) (by simp)
      have hb1 : b1 ≠ 0#8 := h1.2 (k1, b1) (by simp)
      have below : ∀ (m : Memory) (k a : Nat), (∀ x ∈ m, k < x.1) → a ≤ k → Memory.read m a = 0#8 :=
        fun m k a hk ha => Memory.read_of_lt m a (fun x hx => by have := hk x hx; omega)
      have hk : k = k1 := by
        rcases lt_trichotomy k k1 with hlt | heq | hgt
        · have := h k
          rw [Memory.read, if_pos rfl, Memory.read, if_neg (by omega), below m1 k1 k hm1 (by omega)] at this
          exact absurd this hb
        · exact heq
        · have := h k1
          rw [Memory.read, if_neg (by omega), Memory.read, if_pos rfl, below m k k1 hm (by omega)] at this
          exact absurd this.symm hb1
      subst hk
      have hbb := h k
      rw [Memory.read, if_pos rfl, Memory.read, if_pos rfl] at hbb
      subst hbb
      have : m = m1 := by
        refine Memory.ext_of_read m m1 ⟨hs, fun x hx => h0.2 x (by simp [hx])⟩ ⟨hs1, fun x hx => h1.2 x (by simp [hx])⟩ ?_
        intro a
        by_cases ha : k = a
        · subst ha
          rw [below m k k hm le_rfl, below m1 k k hm1 le_rfl]
        · have := h a
          rwa [Memory.read, if_neg ha, Memory.read, if_neg ha] at this
      rw [this]

/-- Writing the same bytes again changes nothing. -/
theorem writeBytes_writeBytes (m : Memory) (hm : Memory.wf m) (frame : List Byte) :
    Memory.writeBytes (Memory.writeBytes m 0 frame) 0 frame = Memory.writeBytes m 0 frame := by
  have hw := Memory.wf_writeBytes frame m 0 hm
  refine Memory.ext_of_read _ _ (Memory.wf_writeBytes _ _ _ hw) hw fun a => ?_
  rw [Memory.read_writeBytes _ _ _ hw]
  by_cases h : 0 ≤ a ∧ a < 0 + frame.length
  · rw [if_pos h, Memory.read_writeBytes _ _ _ hm, if_pos h]
  · rw [if_neg h]

end Sys2Proof.Machine
end

