-- ==== Sys2Proof/Laws/Decoding.lean ====
section
/-! SUPPORT. Each operand decoder reads back what the encoder writes. -/

namespace Sys2Proof

@[simp] theorem decodeBit_encodeBit (b : Bool) : decodeBit (encodeBit b) = .ok b := by
  cases b <;> rfl

@[simp] theorem decodeFormat_encodeFormat (f : Format) : decodeFormat (encodeFormat f) = .ok f := by
  cases f <;> rfl

@[simp] theorem decodeChannel_encodeChannel (ch : Channel) : decodeChannel (encodeChannel ch) = .ok ch := by
  have := ch.isLt
  have h : (encodeChannel ch).toNat = ch.val := by
    rw [encodeChannel, BitVec.toNat_ofNat, Nat.mod_eq_of_lt (by omega)]
  simp [decodeChannel, h]

@[simp] theorem decodeRaw_encodeRaw (v : RawVal) :
    decodeRaw (loByte (v.setWidth 16)) (hiByte (v.setWidth 16)) = .ok v := by
  have := v.isLt
  have h : (v.setWidth 16 : SlotWord).toNat < 2048 := by simp; omega
  rw [decodeRaw, le16_lo_hi, if_pos h]
  congr 1
  apply BitVec.eq_of_toNat_eq
  simp

/-- The samples of an ENC image are read back, whatever follows them. -/
@[simp] theorem decodeSamples_flatMap (samples : List Sample) (rest : List Byte) :
    decodeSamples samples.length (samples.flatMap encodeSample ++ rest) = .ok (samples, rest) := by
  induction samples with
  | nil => rfl
  | cons x samples ih =>
      simp only [List.length_cons, List.flatMap_cons, encodeSample, encodeRaw, List.cons_append, List.nil_append,
        decodeSamples, decodeChannel_encodeChannel, decodeRaw_encodeRaw, ih]
      rfl

/-- A command is decoded from its image alone when it is from its image and any rest. -/
theorem decode_of_decodeCommand (ports : List Byte) (i : Instr)
    (h : ∀ rest, decodeCommand (ports ++ rest) = .ok (i, rest)) : decode (.command ports) = .ok i := by
  have := h []
  rw [List.append_nil] at this
  rw [decode, this]
  rfl

/-- A presented word is the word. -/
@[simp] theorem decode_wireOf (kind : WireKind) (w : SlotWord) : decode (wireOf kind w) = .ok (decodeWire kind w) := by
  rw [wireOf, decode, be16_hi_lo]

/-! ## The fields of a wire word (R53, R54) -/

theorem slotCWord_toNat (c : BitVec 6) (v : BitVec 10) : (slotCWord c v).toNat = 1024 * c.toNat + v.toNat := by
  have h : (slotCWord c v).toNat = c.toNat * 2 ^ 10 + v.toNat := append_toNat c v
  omega

theorem slotXWord_toNat (x : BitVec 1) (c : BitVec 4) (v : BitVec 11) :
    (slotXWord x c v).toNat = 32768 * x.toNat + 2048 * c.toNat + v.toNat := by
  have h : (slotXWord x c v).toNat = (x ++ c).toNat * 2 ^ 11 + v.toNat := append_toNat (x ++ c) v
  rw [append_toNat] at h
  omega

/-- A SLOT.C word is its two fields and nothing else. -/
theorem decodeSlotC_slotCWord (c : BitVec 6) (v : BitVec 10) (h : ¬ (c = 63#6 ∧ v = 1023#10)) :
    decodeSlotC (slotCWord c v) = .slotC c v := by
  have hw := slotCWord_toNat c v
  have hc := c.isLt
  have hv := v.isLt
  have hne : slotCWord c v ≠ 0xFFFF#16 := by
    intro e
    rw [e] at hw
    simp only [BitVec.toNat_ofNat] at hw
    exact h ⟨BitVec.eq_of_toNat_eq (by simp; omega), BitVec.eq_of_toNat_eq (by simp; omega)⟩
  rw [decodeSlotC, if_neg hne]
  congr 1
  · apply BitVec.eq_of_toNat_eq
    rw [BitVec.extractLsb'_toNat, hw, Nat.shiftRight_eq_div_pow]
    omega
  · apply BitVec.eq_of_toNat_eq
    rw [BitVec.extractLsb'_toNat, hw, Nat.shiftRight_eq_div_pow]
    omega

/-- A SLOT.X word is its bit 15, its two fields and nothing else. -/
theorem decodeSlotX_slotXWord (x : BitVec 1) (c : BitVec 4) (v : BitVec 11)
    (h : ¬ (x = 1#1 ∧ c = 15#4 ∧ v = 2047#11)) : decodeSlotX (slotXWord x c v) = .slotX x c v := by
  have hw := slotXWord_toNat x c v
  have hx := x.isLt
  have hc := c.isLt
  have hv := v.isLt
  have hne : slotXWord x c v ≠ 0xFFFF#16 := by
    intro e
    rw [e] at hw
    simp only [BitVec.toNat_ofNat] at hw
    exact h ⟨BitVec.eq_of_toNat_eq (by simp; omega), BitVec.eq_of_toNat_eq (by simp; omega),
      BitVec.eq_of_toNat_eq (by simp; omega)⟩
  rw [decodeSlotX, if_neg hne]
  congr 1
  · apply BitVec.eq_of_toNat_eq
    rw [BitVec.extractLsb'_toNat, hw, Nat.shiftRight_eq_div_pow]
    omega
  · apply BitVec.eq_of_toNat_eq
    rw [BitVec.extractLsb'_toNat, hw, Nat.shiftRight_eq_div_pow]
    omega
  · apply BitVec.eq_of_toNat_eq
    rw [BitVec.extractLsb'_toNat, hw, Nat.shiftRight_eq_div_pow]
    omega

end Sys2Proof
end

