-- ==== Sys2Proof/Laws/Scaler.lean ====
section
/-! SUPPORT. The scaler: its quantisers are those of R4 over the rationals, and its meanings follow the pseudocode of R72
and R73. -/

namespace Sys2Proof.Machine

/-! ## The quantisers (R4, R80) -/

theorem trunc0_neg_num (n m : ℤ) : trunc0 ⟨-n, m⟩ = -trunc0 ⟨n, m⟩ := Int.neg_tdiv ..

theorem trunc0_neg_den (n m : ℤ) : trunc0 ⟨n, -m⟩ = -trunc0 ⟨n, m⟩ := Int.tdiv_neg ..

theorem truncQ_neg (q : ℚ) : truncQ (-q) = -truncQ q := by
  rcases lt_trichotomy q 0 with h | rfl | h
  · rw [truncQ, truncQ, if_pos (by linarith), if_neg (by linarith), Int.floor_neg]
  · simp [truncQ]
  · rw [truncQ, truncQ, if_neg (by linarith), if_pos h.le, Int.ceil_neg]

theorem trunc0_eq_floor (n m : ℤ) (hn : 0 ≤ n) (hm : 0 < m) : trunc0 ⟨n, m⟩ = ⌊(n : ℚ) / m⌋ := by
  have hq : (0 : ℚ) < m := by exact_mod_cast hm
  rw [trunc0, Int.tdiv_eq_ediv_of_nonneg hn]
  symm
  rw [Int.floor_eq_iff, le_div_iff₀ hq, div_lt_iff₀ hq]
  have h1 := Int.ediv_mul_le n hm.ne'
  have h2 := Int.lt_ediv_add_one_mul_self n hm
  exact ⟨by exact_mod_cast h1, by exact_mod_cast h2⟩

theorem trunc0_eq_truncQ_of_pos (n m : ℤ) (hm : 0 < m) : trunc0 ⟨n, m⟩ = truncQ ((n : ℚ) / m) := by
  have hq : (0 : ℚ) < m := by exact_mod_cast hm
  rcases le_or_gt 0 n with hn | hn
  · have hn' : (0 : ℚ) ≤ n := by exact_mod_cast hn
    rw [trunc0_eq_floor n m hn hm, truncQ, if_pos (by positivity)]
  · have h := trunc0_eq_floor (-n) m (by omega) hm
    have hn' : (0 : ℚ) < ((-n : ℤ) : ℚ) := by exact_mod_cast (by omega : 0 < -n)
    have e : (n : ℚ) / m = -(((-n : ℤ) : ℚ) / m) := by push_cast; ring
    rw [e, truncQ_neg, truncQ, if_pos (by positivity), ← h, trunc0_neg_num, neg_neg]

/-- `trunc0` of an exact quotient is R4's over the rationals. -/
theorem trunc0_eq_truncQ (n m : ℤ) (hm : m ≠ 0) : trunc0 ⟨n, m⟩ = truncQ ((n : ℚ) / m) := by
  rcases lt_or_gt_of_ne hm with h | h
  · have := trunc0_eq_truncQ_of_pos (-n) (-m) (by omega)
    rw [trunc0_neg_num, trunc0_neg_den, neg_neg] at this
    rw [this]; push_cast; rw [neg_div_neg_eq]
  · exact trunc0_eq_truncQ_of_pos n m h

theorem Ratio.nonneg_iff (n m : ℤ) (hm : m ≠ 0) : Ratio.nonneg ⟨n, m⟩ = true ↔ 0 ≤ (n : ℚ) / m := by
  have hm' : (m : ℚ) ≠ 0 := by exact_mod_cast hm
  have h2 : (0 : ℚ) < (m : ℚ) * m := mul_self_pos.2 hm'
  have e : (n : ℚ) / m = ((n * m : ℤ) : ℚ) / ((m : ℚ) * m) := by push_cast; field_simp
  rw [Ratio.nonneg, decide_eq_true_iff, e, le_div_iff₀ h2, zero_mul]
  exact_mod_cast Iff.rfl

/-- `rha` of an exact quotient is R4's over the rationals. -/
theorem rha_eq_rhaQ (n m : ℤ) (hm : m ≠ 0) : rha ⟨n, m⟩ = rhaQ ((n : ℚ) / m) := by
  have hm' : (m : ℚ) ≠ 0 := by exact_mod_cast hm
  by_cases h : 0 ≤ (n : ℚ) / m
  · rw [rha, if_pos ((Ratio.nonneg_iff n m hm).2 h), rhaQ, if_pos h, trunc0_eq_truncQ _ _ (by simpa using hm)]
    congr 1; push_cast; field_simp
  · rw [rha, if_neg (fun c => h ((Ratio.nonneg_iff n m hm).1 c)), rhaQ, if_neg h,
      trunc0_eq_truncQ _ _ (by simpa using hm)]
    congr 1; push_cast; field_simp

/-- `trunc0` does not go beyond the quotient and is less than 1 short of it (R4). -/
theorem truncQ_bounds (q : ℚ) : |(truncQ q : ℚ)| ≤ |q| ∧ |q| < |(truncQ q : ℚ)| + 1 ∧ 0 ≤ (truncQ q : ℚ) * q := by
  have pos : ∀ x : ℚ, 0 ≤ x →
      |(truncQ x : ℚ)| ≤ |x| ∧ |x| < |(truncQ x : ℚ)| + 1 ∧ 0 ≤ (truncQ x : ℚ) * x := by
    intro x hx
    have h0 : (0 : ℚ) ≤ (⌊x⌋ : ℚ) := by exact_mod_cast Int.floor_nonneg.2 hx
    rw [truncQ, if_pos hx, abs_of_nonneg h0, abs_of_nonneg hx]
    exact ⟨Int.floor_le x, Int.lt_floor_add_one x, mul_nonneg h0 hx⟩
  rcases le_total 0 q with h | h
  · exact pos q h
  · have := pos (-q) (by linarith)
    rw [truncQ_neg] at this
    simpa using this

/-- `rhaQ` is odd (R80). -/
theorem rhaQ_neg (q : ℚ) : rhaQ (-q) = -rhaQ q := by
  rcases lt_trichotomy q 0 with h | rfl | h
  · rw [rhaQ, rhaQ, if_pos (by linarith), if_neg (by linarith), ← truncQ_neg]; congr 1; ring
  · norm_num [rhaQ, truncQ]
  · rw [rhaQ, rhaQ, if_neg (by linarith), if_pos h.le, ← truncQ_neg]; congr 1; ring

/-- `rha` is a nearest integer, and at a tie the one away from zero (R4). -/
theorem rhaQ_near (q : ℚ) : |(rhaQ q : ℚ) - q| ≤ 1 / 2 ∧ (|(rhaQ q : ℚ) - q| = 1 / 2 → |q| < |(rhaQ q : ℚ)|) := by
  have pos : ∀ x : ℚ, 0 ≤ x →
      |(rhaQ x : ℚ) - x| ≤ 1 / 2 ∧ (|(rhaQ x : ℚ) - x| = 1 / 2 → |x| < |(rhaQ x : ℚ)|) := by
    intro x hx
    have h1 := Int.floor_le (x + 1 / 2)
    have h2 := Int.lt_floor_add_one (x + 1 / 2)
    have h0 : (0 : ℚ) ≤ (⌊x + 1 / 2⌋ : ℚ) := by exact_mod_cast Int.floor_nonneg.2 (by linarith)
    rw [rhaQ, if_pos hx, truncQ, if_pos (by linarith), abs_of_nonneg hx, abs_of_nonneg h0]
    refine ⟨abs_le.2 ⟨by linarith, by linarith⟩, fun h => ?_⟩
    rcases (abs_eq (by norm_num)).1 h with h | h <;> linarith
  rcases le_total 0 q with h | h
  · exact pos q h
  · have := pos (-q) (by linarith)
    rw [rhaQ_neg] at this
    push_cast at this
    have e : -(rhaQ q : ℚ) - -q = -((rhaQ q : ℚ) - q) := by ring
    rwa [e, abs_neg, abs_neg, abs_neg] at this

/-! ## SCALE and DESCALE -/

theorem inTRange_iff (t : ℤ) : inTRange t = true ↔ fitsT t := by
  simp [inTRange, fitsT]

theorem inRawRange_iff (r : ℤ) : inRawRange r = true ↔ fitsRaw r := by
  simp [inRawRange, fitsRaw]

theorem linear_over_rationals (x x0 x1 y0 y1 : ℤ) (h : x1 - x0 ≠ 0) :
    ((linear x x0 x1 y0 y1).num : ℚ) / (linear x x0 x1 y0 y1).den = ((x : ℚ) - x0) * ((y1 : ℚ) - y0) / ((x1 : ℚ) - x0) + y0 := by
  have h' : (x1 : ℚ) - x0 ≠ 0 := by exact_mod_cast h
  simp only [linear]
  push_cast
  field_simp

/-- SCALE before the Overflow test is R72's pseudocode over the rationals. -/
theorem scaleExact_eq (s : State) (raw : RawVal) :
    scaleExact s raw = if invalidRange s then .error .invalidRange else .ok (scaleSpec s raw) := by
  by_cases ha : s.active = false
  · simp [scaleExact, scaleSpec, invalidRange, ha]
  by_cases hi : s.inMin = s.inMax
  · simp [scaleExact, invalidRange, ha, hi]
  by_cases ho : s.outMin = s.outMax
  · simp [scaleExact, scaleSpec, invalidRange, ha, hi, ho]
  have hd : s.inMax.toInt - s.inMin.toInt ≠ 0 := fun h => hi (BitVec.eq_of_toInt_eq (by omega))
  have hl := linear_over_rationals raw.toNat s.inMin.toInt s.inMax.toInt s.outMin.toInt s.outMax.toInt hd
  have hp : (2 : ℤ) ^ s.cfg.tFrac ≠ 0 := by positivity
  have hden : (linear raw.toNat s.inMin.toInt s.inMax.toInt s.outMin.toInt s.outMax.toInt).den ≠ 0 := hd
  rw [scaleExact, if_neg ha, if_neg hi, if_neg ho, if_neg (fun h => hi h.2), scaleSpec, if_neg ha, if_neg ho]
  push_cast at hl
  simp only [rha_eq_rhaQ _ _ (mul_ne_zero hden hp), trunc0_eq_truncQ _ _ hden, Int.cast_mul, Int.cast_pow, Int.cast_ofNat,
    ← div_div, hl]

/-- SCALE as R71, R72 and R75 say it. -/
theorem scaleValue_eq (s : State) (raw : RawVal) :
    scaleValue s raw = if invalidRange s then .error .invalidRange
      else if fitsT (scaleSpec s raw) then .ok (BitVec.ofInt 32 (scaleSpec s raw)) else .error .overflow := by
  rw [scaleValue, scaleExact_eq]
  by_cases h : invalidRange s
  · simp only [if_pos h]
  · simp only [if_neg h, inTRange_iff]

/-- DESCALE before the Overflow test is R73's pseudocode over the rationals. -/
theorem descaleExact_eq (s : State) (value : TVal) :
    descaleExact s value = if invalidRange s then .error .invalidRange else .ok (descaleSpec s value) := by
  have hp : (2 : ℤ) ^ s.cfg.tFrac ≠ 0 := by positivity
  by_cases ha : s.active = false
  · simp [descaleExact, descaleSpec, invalidRange, ha, rha_eq_rhaQ _ _ hp, trunc0_eq_truncQ _ _ hp]
  by_cases hi : s.inMin = s.inMax
  · simp [descaleExact, invalidRange, ha, hi]
  have hat : s.active = true := by simpa using ha
  by_cases ho : s.outMin = s.outMax
  · simp [descaleExact, descaleSpec, invalidRange, hat, hi, ho]
  have hd : s.outMax.toInt - s.outMin.toInt ≠ 0 := fun h => ho (BitVec.eq_of_toInt_eq (by omega))
  have hl := linear_over_rationals value.toInt s.outMin.toInt s.outMax.toInt s.inMin.toInt s.inMax.toInt hd
  have hden : (linear value.toInt s.outMin.toInt s.outMax.toInt s.inMin.toInt s.inMax.toInt).den ≠ 0 := hd
  rw [descaleExact, if_neg ha, if_neg hi, if_neg ho, if_neg (fun h => hi h.2), descaleSpec, if_neg (fun h => ho h.2)]
  simp only [if_neg ha, rha_eq_rhaQ _ _ hden, trunc0_eq_truncQ _ _ hden, hl]

/-- DESCALE as R71, R73 and R75 say it. -/
theorem descaleValue_eq (s : State) (value : TVal) :
    descaleValue s value = if invalidRange s then .error .invalidRange
      else if fitsRaw (descaleSpec s value) then .ok (BitVec.ofInt 11 (descaleSpec s value)) else .error .overflow := by
  rw [descaleValue, descaleExact_eq]
  by_cases h : invalidRange s
  · simp only [if_pos h]
  · simp only [if_neg h, inRawRange_iff]

/-- A representable T value is the encoding of itself. -/
theorem toInt_ofInt_of_fitsT (t : ℤ) (h : fitsT t) : (BitVec.ofInt 32 t).toInt = t := by
  obtain ⟨h1, h2⟩ := h
  rw [BitVec.toInt_ofInt, Int.bmod_eq_of_le] <;> omega

/-- A representable raw value is the register contents of itself. -/
theorem toNat_ofInt_of_fitsRaw (r : ℤ) (h : fitsRaw r) : ((BitVec.ofInt 11 r).toNat : ℤ) = r := by
  obtain ⟨h1, h2⟩ := h
  rw [BitVec.toNat_ofInt, Int.toNat_of_nonneg (by omega)]
  omega

end Sys2Proof.Machine
end

