-- ==== Sys2Proof/Laws/Stream.lean ====
section
/-! SUPPORT. POLL: what ingesting a frame does to the state (R112 to R115), and how the loop over the selected frames
composes (R110, R111). -/

namespace Sys2Proof.Machine

/-! ## One frame -/

/-- Adoption writes SYSTEM and FORMAT alone (R115). -/
theorem State.adopt_eq (s : State) (x : Option Byte) :
    s.adopt x = { s with
      system := ((adoption s.cfg s.internal s.system x).map Prod.fst).getD s.system
      format := ((adoption s.cfg s.internal s.system x).map Prod.snd).getD s.format } := by
  rw [State.adopt]
  cases adoption s.cfg s.internal s.system x <;> rfl

/-- An adoption is of a known system other than the present one, in internal mode, with its Format (R115). -/
theorem adoption_eq_some_iff (cfg : Config) (internal : Bool) (system : Byte) (x : Option Byte) (p : Byte × Format) :
    adoption cfg internal system x = some p ↔
      internal = true ∧ x = some p.1 ∧ p.1 ≠ system ∧ fmtOf cfg p.1 = some p.2 := by
  obtain ⟨s1, f1⟩ := p
  cases x with
  | none => simp [adoption]
  | some s =>
      by_cases h : internal = true ∧ s ≠ system
      · cases hf : fmtOf cfg s with
        | none =>
            simp only [adoption, h, bne_iff_ne, Bool.and_eq_true, ne_eq, not_false_eq_true, and_self, if_true, hf,
              Option.map_none, reduceCtorEq, false_iff]
            rintro ⟨-, hx, -, hk⟩
            simp only [Option.some.injEq] at hx
            rw [← hx, hf] at hk
            exact absurd hk (by simp)
        | some f =>
            simp only [adoption, h, bne_iff_ne, Bool.and_eq_true, ne_eq, not_false_eq_true, and_self, if_true, hf,
              Option.map_some, Option.some.injEq, Prod.mk.injEq, true_and]
            constructor
            · rintro ⟨rfl, rfl⟩; exact ⟨rfl, h.2, hf⟩
            · rintro ⟨rfl, -, hk⟩; exact ⟨rfl, by rw [hf] at hk; simpa using hk⟩
      · have hn : (internal && s != system) = false := by
          cases internal <;> simp_all
        simp only [adoption, hn, Bool.false_eq_true, if_false, reduceCtorEq, Option.some.injEq, false_iff]
        rintro ⟨hi, rfl, hne, -⟩
        exact h ⟨hi, hne⟩

/-- Ingesting a frame writes the register file, SYSTEM and FORMAT alone (R112). -/
theorem ingestFrame_eq (frame : List Byte) (s : State) :
    (ingestFrame frame s).1 = { s with
      raw := (s.storeSamples (decodeFrame s.cfg frame s.format s.internal s.swap).samples).raw
      system := ((adoption s.cfg s.internal s.system (frameSystem s.internal frame)).map Prod.fst).getD s.system
      format := ((adoption s.cfg s.internal s.system (frameSystem s.internal frame)).map Prod.snd).getD s.format } := by
  have h : (ingestFrame frame s).1 = (s.storeSamples (decodeFrame s.cfg frame s.format s.internal s.swap).samples).adopt
      (frameSystem s.internal frame) := rfl
  rw [h, State.storeSamples_eq, State.adopt_eq]

/-- The report of a frame (R118). -/
theorem ingestFrame_report (frame : List Byte) (s : State) :
    (ingestFrame frame s).2 = reportOf s (decodeFrame s.cfg frame s.format s.internal s.swap) := rfl

/-- Each register after a frame: the value of the last kept slot that names it, else what it held (R113). -/
theorem ingestFrame_raw (frame : List Byte) (s : State) (ch : Channel) :
    ((ingestFrame frame s).1.raw[ch]).toNat = lastNamed (framePairs s.cfg s.format s.swap frame) ch s.raw[ch].toNat := by
  rw [ingestFrame_eq]
  rw [← decodeFrame_pairs s.cfg frame s.format s.internal s.swap]
  exact State.storeSamples_getElem s _ ch

/-- The number of samples a frame stores (R118). -/
theorem ingestFrame_stored (frame : List Byte) (s : State) :
    (ingestFrame frame s).2.stored = (framePairs s.cfg s.format s.swap frame).length := by
  rw [← decodeFrame_pairs s.cfg frame s.format s.internal s.swap, List.length_map]
  rfl

/-- Ingesting a frame neither reads nor writes RX and the response port. -/
theorem ingestFrame_ports (frame : List Byte) (s : State) (rx : List Byte) (r : Option Response) :
    ingestFrame frame { s with rx := rx, response := r } =
      ({ (ingestFrame frame s).1 with rx := rx, response := r }, (ingestFrame frame s).2) := by
  refine Prod.ext ?_ rfl
  rw [ingestFrame_eq, ingestFrame_eq]
  simp only [State.storeSamples_raw]

/-! ## The loop -/

@[simp] theorem ingestFrames_nil (rx : List Byte) (s : State) : ingestFrames rx [] s = (s, []) := rfl

theorem ingestFrames_cons (rx : List Byte) (off : Nat) (offsets : List Nat) (s : State) :
    ingestFrames rx (off :: offsets) s =
      ((ingestFrames rx offsets (ingestFrame (readBytes rx off 16) s).1).1,
        (ingestFrame (readBytes rx off 16) s).2 :: (ingestFrames rx offsets (ingestFrame (readBytes rx off 16) s).1).2) :=
  rfl

/-- The loop writes the register file, SYSTEM and FORMAT alone. -/
theorem ingestFrames_eq (rx : List Byte) (offsets : List Nat) (s : State) :
    (ingestFrames rx offsets s).1 = { s with
      raw := (ingestFrames rx offsets s).1.raw
      system := (ingestFrames rx offsets s).1.system
      format := (ingestFrames rx offsets s).1.format } := by
  induction offsets generalizing s with
  | nil => rfl
  | cons off offsets ih =>
      rw [ingestFrames_cons]
      have h := ih (ingestFrame (readBytes rx off 16) s).1
      rw [h]
      have h1 := ingestFrame_eq (readBytes rx off 16) s
      simp only [h1]

/-- The loop neither reads nor writes RX and the response port of the state. -/
theorem ingestFrames_ports (rx : List Byte) (offsets : List Nat) (s : State) (rx1 : List Byte) (r : Option Response) :
    ingestFrames rx offsets { s with rx := rx1, response := r } =
      ({ (ingestFrames rx offsets s).1 with rx := rx1, response := r }, (ingestFrames rx offsets s).2) := by
  induction offsets generalizing s with
  | nil => rfl
  | cons off offsets ih =>
      rw [ingestFrames_cons, ingestFrames_cons, ingestFrame_ports, ih]

/-- One report for each selected frame (R120). -/
@[simp] theorem ingestFrames_length (rx : List Byte) (offsets : List Nat) (s : State) :
    (ingestFrames rx offsets s).2.length = offsets.length := by
  induction offsets generalizing s with
  | nil => rfl
  | cons off offsets ih => simp [ingestFrames_cons, ih]

/-- The frame at the head of RX. -/
theorem readBytes_head (frame rest : List Byte) (h : frame.length = 16) : readBytes (frame ++ rest) 0 16 = frame := by
  rw [readBytes, List.drop_zero, ← h, List.take_left]

/-- A frame beyond the head of RX. -/
theorem readBytes_beyond (frame rest : List Byte) (off : Nat) (h : frame.length = 16) :
    readBytes (frame ++ rest) (16 + off) 16 = readBytes rest off 16 := by
  rw [readBytes, readBytes, ← h, ← List.drop_drop, List.drop_left]

/-- The frames beyond the head of RX are the frames of what follows it. -/
theorem ingestFrames_beyond (frame rest : List Byte) (offsets : List Nat) (s : State) (h : frame.length = 16) :
    ingestFrames (frame ++ rest) (offsets.map (fun off => 16 + off)) s = ingestFrames rest offsets s := by
  induction offsets generalizing s with
  | nil => rfl
  | cons off offsets ih =>
      rw [List.map_cons, ingestFrames_cons, ingestFrames_cons, readBytes_beyond frame rest off h, ih]

/-! ## POLL (R110, R111) -/

/-- The offsets of process-all mode: the head, then the frames beyond it. -/
theorem selectFrames_all (m : Nat) :
    selectFrames (16 + m) true =
      (0 :: ((List.range (m / 16)).map (fun j => 16 * j)).map (fun off => 16 + off), 16 + 16 * (m / 16)) := by
  have h : (16 + m) / 16 = m / 16 + 1 := by omega
  rw [selectFrames, if_neg (by omega), if_pos rfl, h, List.range_succ_eq_map]
  refine Prod.ext ?_ (by simp only; omega)
  simp only [List.map_cons, List.map_map, Nat.mul_zero]
  congr 2
  funext j
  simp only [Function.comp_apply, Nat.succ_eq_add_one]
  omega

theorem selectFrames_stale (n : Nat) (h : 16 ≤ n) : selectFrames n false = ([n - 16], n) := by
  rw [selectFrames, if_neg (by omega)]; rfl

theorem execPoll_short (s : State) (h : s.rx.length < 16) : execPoll s = .next (s.respond .shortRead .none) := by
  rw [execPoll, if_pos h]; rfl

/-- POLL with a whole frame buffered (R111). -/
theorem execPoll_eq (s : State) (h : 16 ≤ s.rx.length) :
    execPoll s = .next (((ingestFrames s.rx (selectFrames s.rx.length s.procall).1 s).1.consume
      (selectFrames s.rx.length s.procall).2).respond .ok
        (.reports (ingestFrames s.rx (selectFrames s.rx.length s.procall).1 s).2)) := by
  rw [execPoll, if_neg (by omega)]; rfl

/-- POLL in process-all mode, of a frame with `rest` behind it: the frame, then the whole frames of `rest` (R110, R111). -/
theorem execPoll_cons (s : State) (frame rest : List Byte) (hp : s.procall = true) (hrx : s.rx = frame ++ rest)
    (hl : frame.length = 16) :
    execPoll s = .next
      { (ingestFrames rest ((List.range (rest.length / 16)).map (fun j => 16 * j)) (ingestFrame frame s).1).1 with
        rx := rest.drop (16 * (rest.length / 16))
        response := some ⟨.ok, .reports ((ingestFrame frame s).2 ::
          (ingestFrames rest ((List.range (rest.length / 16)).map (fun j => 16 * j)) (ingestFrame frame s).1).2)⟩ } := by
  rw [execPoll_eq s (by simp [hrx, hl])]
  have hrest : (ingestFrames rest ((List.range (rest.length / 16)).map (fun j => 16 * j)) (ingestFrame frame s).1).1.rx
      = frame ++ rest := by
    rw [ingestFrames_eq, ingestFrame_eq, hrx]
  rw [hp, hrx, List.length_append, hl, selectFrames_all]
  simp only [ingestFrames_cons, readBytes_head frame rest hl, ingestFrames_beyond frame rest _ _ hl]
  simp only [State.consume, State.respond, hrest]
  rw [← hl, ← List.drop_drop, List.drop_left]

/-- POLL of exactly one frame, in either mode (R110, R111). -/
theorem execPoll_one (s : State) (h : s.rx.length = 16) :
    execPoll s = .next { (ingestFrame s.rx s).1 with
      rx := [], response := some ⟨.ok, .reports [(ingestFrame s.rx s).2]⟩ } := by
  rw [execPoll_eq s (by omega)]
  have hs : selectFrames s.rx.length s.procall = ([0], 16) := by
    rw [h]; cases s.procall <;> rfl
  have hr : readBytes s.rx 0 16 = s.rx := by
    simpa using readBytes_head s.rx [] h
  have hrx : (ingestFrame s.rx s).1.rx = s.rx := by rw [ingestFrame_eq]
  rw [hs, ingestFrames_cons, ingestFrames_nil, hr]
  simp only [State.consume, State.respond, hrx]
  rw [List.drop_of_length_le (by omega)]

/-- POLL in discard-stale mode decodes the last 16 bytes and empties RX (R110, R164). -/
theorem execPoll_stale (s : State) (stale frame : List Byte) (hp : s.procall = false) (hrx : s.rx = stale ++ frame)
    (hl : frame.length = 16) :
    execPoll s = .next { (ingestFrame frame s).1 with
      rx := [], response := some ⟨.ok, .reports [(ingestFrame frame s).2]⟩ } := by
  rw [execPoll_eq s (by simp [hrx, hl])]
  have hr : readBytes s.rx (s.rx.length - 16) 16 = frame := by
    rw [readBytes, hrx, List.length_append, hl, Nat.add_sub_cancel, List.drop_left, List.take_of_length_le (by omega)]
  have h1 : (ingestFrame frame s).1.rx = s.rx := by rw [ingestFrame_eq]
  rw [hp, selectFrames_stale _ (by simp [hrx, hl]), ingestFrames_cons, ingestFrames_nil, hr]
  simp only [State.consume, State.respond, h1]
  rw [List.drop_of_length_le (by omega)]

end Sys2Proof.Machine
end

