-- ==== Sys2Proof/Laws/Exec.lean ====
section
/-! SUPPORT. One lemma per meaning: everything it can do when it answers a next state. -/

namespace Sys2Proof.Machine

variable {s t : State}

theorem raise_next (status : Status) (h : raise status s = .next t) : t = s.respond status .none := by
  cases h; rfl

theorem complete_next (result : Result) (h : complete result s = .next t) : t = s.respond .ok result := by
  cases h; rfl

/-- SCALE raises InvalidRange or Overflow, as R71, R72 and R75 say, or answers its formula; it writes nothing. -/
theorem execScale_next (raw : RawVal) (h : execScale raw s = .next t) :
    (invalidRange s ∧ t = s.respond .invalidRange .none)
    ∨ (¬ invalidRange s ∧ fitsT (scaleSpec s raw) ∧ t = s.respond .ok (.value (BitVec.ofInt 32 (scaleSpec s raw))))
    ∨ (¬ invalidRange s ∧ ¬ fitsT (scaleSpec s raw) ∧ t = s.respond .overflow .none) := by
  rw [execScale, scaleValue_eq] at h
  by_cases hi : invalidRange s
  · simp only [if_pos hi, finishScale] at h
    exact .inl ⟨hi, raise_next _ h⟩
  · by_cases hf : fitsT (scaleSpec s raw)
    · simp only [if_neg hi, if_pos hf, finishScale] at h
      exact .inr (.inl ⟨hi, hf, complete_next _ h⟩)
    · simp only [if_neg hi, if_neg hf, finishScale] at h
      exact .inr (.inr ⟨hi, hf, raise_next _ h⟩)

/-- DESCALE raises InvalidRange or Overflow, as R71, R73 and R75 say, or answers its formula; it writes nothing. -/
theorem execDescale_next (value : TVal) (h : execDescale value s = .next t) :
    (invalidRange s ∧ t = s.respond .invalidRange .none)
    ∨ (¬ invalidRange s ∧ fitsRaw (descaleSpec s value)
        ∧ t = s.respond .ok (.raw (BitVec.ofInt 11 (descaleSpec s value))))
    ∨ (¬ invalidRange s ∧ ¬ fitsRaw (descaleSpec s value) ∧ t = s.respond .overflow .none) := by
  rw [execDescale, descaleValue_eq] at h
  by_cases hi : invalidRange s
  · simp only [if_pos hi] at h
    exact .inl ⟨hi, raise_next _ h⟩
  · by_cases hf : fitsRaw (descaleSpec s value)
    · simp only [if_neg hi, if_pos hf] at h
      exact .inr (.inl ⟨hi, hf, complete_next _ h⟩)
    · simp only [if_neg hi, if_neg hf] at h
      exact .inr (.inr ⟨hi, hf, raise_next _ h⟩)

/-- CHRD is SCALE of the register (R77). -/
theorem execChrd_eq (ch : Channel) (s : State) : execChrd ch s = execScale (s.raw[ch]) s := rfl

/-- CHWR raises what DESCALE raises and writes nothing, or writes the one register (R78). -/
theorem execChwr_next (ch : Channel) (value : TVal) (h : execChwr ch value s = .next t) :
    (invalidRange s ∧ t = s.respond .invalidRange .none)
    ∨ (¬ invalidRange s ∧ fitsRaw (descaleSpec s value)
        ∧ t = (s.writeRaw ch (BitVec.ofInt 11 (descaleSpec s value))).respond .ok .none)
    ∨ (¬ invalidRange s ∧ ¬ fitsRaw (descaleSpec s value) ∧ t = s.respond .overflow .none) := by
  rw [execChwr, descaleValue_eq] at h
  by_cases hi : invalidRange s
  · simp only [if_pos hi] at h
    exact .inl ⟨hi, raise_next _ h⟩
  · by_cases hf : fitsRaw (descaleSpec s value)
    · simp only [if_neg hi, if_pos hf] at h
      exact .inr (.inl ⟨hi, hf, complete_next _ h⟩)
    · simp only [if_neg hi, if_neg hf] at h
      exact .inr (.inr ⟨hi, hf, raise_next _ h⟩)

/-- DEC raises ShortBuffer or decodes; it writes nothing (R90). -/
theorem execDec_next (f : Format) (internal swap : Bool) (bytes : List Byte)
    (h : execDec f internal swap bytes s = .next t) :
    (bytes.length < 16 ∧ t = s.respond .shortBuffer .none)
    ∨ (bytes.length = 16 ∧ t = s.respond .ok (.decoded (decodeFrame s.cfg bytes f internal swap))) := by
  rw [execDec] at h
  split at h
  · cases h
  · split at h
    · rename_i hl
      exact .inl ⟨hl, raise_next _ h⟩
    · rename_i hg hl
      have he : readBytes bytes 0 16 = bytes := by
        rw [readBytes, List.drop_zero, List.take_of_length_le (by omega)]
      rw [he] at h
      exact .inr ⟨by omega, complete_next _ h⟩

/-- ENC writes OUT alone (R92). -/
theorem execEnc_next (f : Format) (internal swap : Bool) (fades : Fades) (system : Byte) (samples : List Sample)
    (h : execEnc f internal swap fades system samples s = .next t) :
    samples.length ≤ 7
    ∧ t = (s.writeOut (encodeFrame s.cfg samples fades system internal f swap)).respond .ok .out := by
  rw [execEnc] at h
  split at h
  · cases h
  · exact ⟨by omega, complete_next _ h⟩

/-- ENCP and ENCA write OUT alone (R94, R95). -/
theorem encodeBatch_next (channels : List Channel) (fades : Fades) (h : encodeBatch channels fades s = .next t) :
    t = (s.writeOut (encodeFrame s.cfg (batch s channels) fades s.system s.internal s.format s.swap)).respond .ok .out :=
  complete_next _ h

/-- POLL raises ShortRead, or ingests the selected frames and drops what R110 consumes from RX. -/
theorem execPoll_next (h : execPoll s = .next t) :
    (s.rx.length < 16 ∧ t = s.respond .shortRead .none)
    ∨ (16 ≤ s.rx.length
        ∧ t = ((ingestFrames s.rx (selectFrames s.rx.length s.procall).1 s).1.consume
            (selectFrames s.rx.length s.procall).2).respond .ok
              (.reports (ingestFrames s.rx (selectFrames s.rx.length s.procall).1 s).2)) := by
  by_cases hl : s.rx.length < 16
  · rw [execPoll_short s hl] at h
    cases h
    exact .inl ⟨hl, rfl⟩
  · rw [execPoll_eq s (by omega)] at h
    cases h
    exact .inr ⟨by omega, rfl⟩

/-- SETSYS and SETMODE raise UnknownSystem, or write SYSTEM, FORMAT and INTERNAL (R130, R132). -/
theorem setSystem_next (sys : Byte) (internal : Bool) (h : setSystem sys internal s = .next t) :
    (fmtOf s.cfg sys = none ∧ t = s.respond (.unknownSystem sys) .none)
    ∨ ∃ f, fmtOf s.cfg sys = some f ∧ t = ((s.withSystem sys f).withInternal internal).respond .ok .none := by
  rw [setSystem] at h
  cases hf : fmtOf s.cfg sys with
  | none => rw [hf] at h; exact .inl ⟨rfl, raise_next _ h⟩
  | some f => rw [hf] at h; exact .inr ⟨f, rfl, complete_next _ h⟩

/-- A state that ends an operation shows its status and its result. -/
theorem respond_response (s : State) (status : Status) (result : Result) :
    (s.respond status result).response = some ⟨status, result⟩ := rfl

/-- POLL keeps every field but the register file, SYSTEM, FORMAT, RX and the response port. -/
theorem execPoll_frame (h : execPoll s = .next t) :
    t = { s with raw := t.raw, system := t.system, format := t.format, rx := t.rx, response := t.response } := by
  rcases execPoll_next h with ⟨-, rfl⟩ | ⟨-, rfl⟩
  · rfl
  · have he := ingestFrames_eq s.rx (selectFrames s.rx.length s.procall).1 s
    generalize ingestFrames s.rx (selectFrames s.rx.length s.procall).1 s = p at he
    obtain ⟨p1, p2⟩ := p
    simp only at he
    simp only [State.consume, State.respond]
    rw [he]

end Sys2Proof.Machine
end

