-- ==== Sys2Proof/Laws/PerInstr.lean ====
section
/-! SUPPORT. Statements made per instruction: the family RoundTrip. -/

namespace Sys2Proof.Laws.RoundTrip

/-- Decoding what the encoder writes for `i` gives what `i` expands to, whatever follows the image of a command. -/
def Statement (i : Instr) : Prop :=
  ∀ cfg : Config, i.wf = true →
    decode (encode cfg i) = .ok (expand cfg i)
    ∧ ∀ ports rest, encode cfg i = .command ports → decodeCommand (ports ++ rest) = .ok (expand cfg i, rest)

/-- A command's statement from its decoder. -/
theorem of_command {i : Instr} (ports : Config → List Byte) (he : ∀ cfg, encode cfg i = .command (ports cfg))
    (hd : ∀ cfg, i.wf = true → ∀ rest, decodeCommand (ports cfg ++ rest) = .ok (expand cfg i, rest)) : Statement i := by
  intro cfg hw
  refine ⟨?_, ?_⟩
  · rw [he cfg]
    exact decode_of_decodeCommand _ _ (hd cfg hw)
  · intro p rest hp
    rw [he cfg] at hp
    cases hp
    exact hd cfg hw rest

/-- A wire word's statement from its decoder. -/
theorem of_wire {i : Instr} (kind : WireKind) (b0 b1 : Byte) (he : ∀ cfg, encode cfg i = .wire kind b0 b1)
    (hd : ∀ cfg, i.wf = true → decode (.wire kind b0 b1) = .ok (expand cfg i)) : Statement i := by
  intro cfg hw
  refine ⟨(he cfg).symm ▸ hd cfg hw, ?_⟩
  intro p rest hp
  rw [he cfg] at hp
  cases hp

theorem scfg (a b : InVal) (c d : TVal) : Statement (.scfg a b c d) :=
  of_command _ (fun _ => rfl) fun cfg _ rest => by
    simp [decodeCommand, decodeScfg, bytes32, expand]

theorem scale (raw : RawVal) : Statement (.scale raw) :=
  of_command _ (fun _ => rfl) fun cfg _ rest => by
    simp only [encodeRaw, List.cons_append, List.nil_append, decodeCommand, BitVec.toNat_ofNat, decodeScale,
      decodeRaw_encodeRaw, expand]
    rfl

theorem descale (value : TVal) : Statement (.descale value) :=
  of_command _ (fun _ => rfl) fun cfg _ rest => by
    simp [decodeCommand, decodeDescale, bytes32, expand]

theorem dec (fmt : Format) (internal swap : Bool) (bytes : List Byte) : Statement (.dec fmt internal swap bytes) :=
  of_command _ (fun _ => rfl) fun cfg hw rest => by
    have hl : bytes.length ≤ 16 := by simpa [Instr.wf] using hw
    have hn : (BitVec.ofNat 8 bytes.length).toNat = bytes.length := by
      rw [BitVec.toNat_ofNat, Nat.mod_eq_of_lt (by omega)]
    simp only [List.cons_append, decodeCommand, BitVec.toNat_ofNat, decodeDec, decodeFormat_encodeFormat,
      decodeBit_encodeBit, expand]
    rw [show (bytes.length % 2 ^ 8) = bytes.length by omega]
    simp only [bind, Except.bind]
    rw [if_neg (by omega), if_neg (by simp), List.take_left, List.drop_left]

theorem enc (fmt : Format) (internal swap : Bool) (fades : Fades) (system : Byte) (samples : List Sample) :
    Statement (.enc fmt internal swap fades system samples) :=
  of_command _ (fun _ => rfl) fun cfg hw rest => by
    have hl : samples.length ≤ 7 := by simpa [Instr.wf] using hw
    simp only [List.cons_append, decodeCommand, BitVec.toNat_ofNat, decodeEnc, decodeFormat_encodeFormat,
      decodeBit_encodeBit, le16_lo_hi, expand]
    rw [show (samples.length % 2 ^ 8) = samples.length by omega]
    simp only [bind, Except.bind]
    rw [if_neg (by omega), decodeSamples_flatMap]

theorem encp (fades : Fades) : Statement (.encp fades) :=
  of_command _ (fun _ => rfl) fun cfg _ rest => by
    simp [decodeCommand, decodeEncp, expand]

theorem enca (fades : Fades) : Statement (.enca fades) :=
  of_command _ (fun _ => rfl) fun cfg _ rest => by
    simp [decodeCommand, decodeEnca, expand]

theorem poll : Statement .poll := of_command _ (fun _ => rfl) fun _ _ _ => rfl

theorem chrd (ch : Channel) : Statement (.chrd ch) :=
  of_command _ (fun _ => rfl) fun cfg _ rest => by
    simp only [List.cons_append, List.nil_append, decodeCommand, BitVec.toNat_ofNat, decodeChrd,
      decodeChannel_encodeChannel, expand]
    rfl

theorem chwr (ch : Channel) (value : TVal) : Statement (.chwr ch value) :=
  of_command _ (fun _ => rfl) fun cfg _ rest => by
    simp only [bytes32, List.cons_append, List.nil_append, decodeCommand, BitVec.toNat_ofNat, decodeChwr,
      decodeChannel_encodeChannel, le32_bytes32, expand]
    rfl

/-- The image of SETSYS, which SETMODE's is too (R64). -/
theorem decodeCommand_encodeSetsys (sys : Byte) (internal : Bool) (rest : List Byte) :
    decodeCommand (encodeSetsys sys internal ++ rest) = .ok (.setsys sys internal, rest) := by
  simp only [encodeSetsys, List.cons_append, List.nil_append, decodeCommand, BitVec.toNat_ofNat, decodeSetsys,
    decodeBit_encodeBit]
  rfl

theorem setsys (sys : Byte) (internal : Bool) : Statement (.setsys sys internal) :=
  of_command _ (fun _ => rfl) fun _ _ rest => decodeCommand_encodeSetsys sys internal rest

theorem setopt (swap procall : Bool) : Statement (.setopt swap procall) :=
  of_command _ (fun _ => rfl) fun cfg _ rest => by
    simp only [List.cons_append, List.nil_append, decodeCommand, BitVec.toNat_ofNat, decodeSetopt,
      decodeBit_encodeBit, expand]
    rfl

theorem setmode (m : Fin 8) : Statement (.setmode m) :=
  of_command _ (fun _ => rfl) fun _ _ rest => decodeCommand_encodeSetsys _ _ rest

theorem reserved0 : Statement .reserved0 := of_command _ (fun _ => rfl) fun _ _ _ => rfl

theorem reservedD : Statement .reservedD := of_command _ (fun _ => rfl) fun _ _ _ => rfl

theorem reservedE : Statement .reservedE := of_command _ (fun _ => rfl) fun _ _ _ => rfl

theorem reservedF : Statement .reservedF := of_command _ (fun _ => rfl) fun _ _ _ => rfl

theorem hdrInt (fades system : Byte) : Statement (.hdrInt fades system) :=
  of_wire _ _ _ (fun _ => rfl) fun cfg _ => by
    have h1 : (be16 fades system).extractLsb' 8 8 = fades := hiByte_be16 fades system
    have h2 : (be16 fades system).extractLsb' 0 8 = system := loByte_be16 fades system
    simp only [decode, decodeWire, decodeHdrInt, h1, h2, expand]

theorem hdrExt (fades : Fades) : Statement (.hdrExt fades) :=
  of_wire _ _ _ (fun _ => rfl) fun _ _ => decode_wireOf .hdrExt fades

theorem slotC (c : BitVec 6) (v : BitVec 10) : Statement (.slotC c v) :=
  of_wire _ _ _ (fun _ => rfl) fun cfg hw => by
    have h : ¬ (c = 63#6 ∧ v = 1023#10) := by rintro ⟨rfl, rfl⟩; exact absurd hw (by decide)
    refine (decode_wireOf .slotC (slotCWord c v)).trans ?_
    rw [decodeWire, decodeSlotC_slotCWord c v h]
    rfl

theorem slotX (x : BitVec 1) (c : BitVec 4) (v : BitVec 11) : Statement (.slotX x c v) :=
  of_wire _ _ _ (fun _ => rfl) fun cfg hw => by
    have h : ¬ (x = 1#1 ∧ c = 15#4 ∧ v = 2047#11) := by rintro ⟨rfl, rfl, rfl⟩; exact absurd hw (by decide)
    refine (decode_wireOf .slotX (slotXWord x c v)).trans ?_
    rw [decodeWire, decodeSlotX_slotXWord x c v h]
    rfl

theorem slotFill : Statement .slotFill :=
  of_wire _ _ _ (fun _ => rfl) fun _ _ => (decode_wireOf .slotC fillSlot).trans rfl

end Sys2Proof.Laws.RoundTrip
end

