-- ==== Sys2Proof/Tests/Slice0.lean ====
section
/-! SUPPORT. The model's own tests. The expected values of decode and step tests come from the encodings of
30_encoding.md and from the vectors of 95_test_vectors.md, named in each comment. A theorem witness_<Name> shows that the
hypotheses of the statement Obligations.<Name> are met by concrete data, clause by clause. -/

namespace Sys2Proof.Tests

open Sys2Proof Sys2Proof.Machine

/-! ## WellFormed: an ill-formed term for each check -/

theorem test_wf_dec_too_long : (Instr.dec .compact false true (List.replicate 17 0#8)).wf = false := by decide

theorem test_wf_enc_too_many : (Instr.enc .compact true true 0#16 1#8 (List.replicate 8 ⟨0, 0#11⟩)).wf = false := by decide

theorem test_wf_slotC_filler : (Instr.slotC 0b111111#6 0b1111111111#10).wf = false := by decide

theorem test_wf_slotX_filler : (Instr.slotX 0b1#1 0b1111#4 0b11111111111#11).wf = false := by decide

theorem test_wf_tc0 : Config.tc0.wf = true := by decide

theorem test_wf_tc1 : Config.tc1.wf = true := by decide

/-- R25: the ids of SYSTEM_TABLE are pairwise distinct. -/
theorem test_wf_duplicate_system :
    (⟨#v[⟨0x01#8, .compact⟩, ⟨0x12#8, .extended⟩, ⟨0x12#8, .extended⟩, ⟨0xB2#8, .extended⟩],
      Vector.replicate 8 ⟨0x01#8, true, 3⟩, 0, true, 0x01#8, true, true⟩ : Config).wf = false := by decide

/-- R160: RST_SYSTEM is known. -/
theorem test_wf_unknown_rst_system : ({ Config.tc0 with rstSystem := 0x55#8 } : Config).wf = false := by decide

/-- R133: every row of BIND_TABLE names a known system. -/
theorem test_wf_unknown_bind_system :
    ({ Config.tc0 with bindTable := Vector.replicate 8 ⟨0x55#8, true, 3⟩ } : Config).wf = false := by decide

/-- R133: pulses are 3 to 10. -/
theorem test_wf_pulses :
    ({ Config.tc0 with bindTable := Vector.replicate 8 ⟨0x01#8, true, 2⟩ } : Config).wf = false
    ∧ ({ Config.tc0 with bindTable := Vector.replicate 8 ⟨0x01#8, true, 11⟩ } : Config).wf = false := by decide

/-- 00_scope.md section 4: T_FRAC is 0 or 16. -/
theorem test_wf_tFrac : ({ Config.tc0 with tFrac := 8 } : Config).wf = false := by decide

/-! ## Decode: words written out from the encodings of 30_encoding.md -/

/-- SCFG 100, -2, 1, -1: code 0001, then the operands of R63. -/
theorem test_decode_scfg :
    decode (.command [0b00000001#8, 0b01100100#8, 0b00000000#8, 0b11111110#8, 0b11111111#8,
      0b00000001#8, 0b00000000#8, 0b00000000#8, 0b00000000#8, 0b11111111#8, 0b11111111#8, 0b11111111#8, 0b11111111#8])
      = .ok (.scfg 100#16 0xFFFE#16 1#32 0xFFFFFFFF#32) := by decide

theorem test_decode_scale : decode (.command [0b00000010#8, 0b11111111#8, 0b00000111#8]) = .ok (.scale 2047#11) := by decide

theorem test_decode_scale_refused :
    decode (.command [0b00000010#8, 0b00000000#8, 0b00001000#8]) = .error .rawOutOfRange := by decide

theorem test_decode_descale :
    decode (.command [0b00000011#8, 0b00000100#8, 0b00000011#8, 0b00000010#8, 0b00000001#8])
      = .ok (.descale 0x01020304#32) := by decide

theorem test_decode_dec :
    decode (.command [0b00000100#8, 0b00000001#8, 0b00000000#8, 0b00000001#8, 0b00000010#8, 0b10101010#8, 0b01010101#8])
      = .ok (.dec .extended false true [0xAA#8, 0x55#8]) := by decide

theorem test_decode_enc :
    decode (.command [0b00000101#8, 0b00000000#8, 0b00000001#8, 0b00000000#8, 0b00110100#8, 0b00010010#8, 0b10110010#8,
      0b00000001#8, 0b00001011#8, 0b11111111#8, 0b00000011#8])
      = .ok (.enc .compact true false 0x1234#16 0xB2#8 [⟨11, 1023#11⟩]) := by decide

theorem test_decode_encp : decode (.command [0b00000110#8, 0b11101111#8, 0b10111110#8]) = .ok (.encp 0xBEEF#16) := by decide

theorem test_decode_enca : decode (.command [0b00000111#8, 0b11101111#8, 0b10111110#8]) = .ok (.enca 0xBEEF#16) := by decide

theorem test_decode_poll : decode (.command [0b00001000#8]) = .ok .poll := by decide

theorem test_decode_chrd :
    decode (.command [0b00001001#8, 0b00001011#8]) = .ok (.chrd 11)
    ∧ decode (.command [0b00001001#8, 0b00001100#8]) = .error .channelOutOfRange := by decide

theorem test_decode_chwr :
    decode (.command [0b00001010#8, 0b00000011#8, 0b00110010#8, 0b00000000#8, 0b00000000#8, 0b00000000#8])
      = .ok (.chwr 3 50#32) := by decide

theorem test_decode_setsys :
    decode (.command [0b00001011#8, 0b10110010#8, 0b00000000#8]) = .ok (.setsys 0xB2#8 false) := by decide

theorem test_decode_setopt :
    decode (.command [0b00001100#8, 0b00000001#8, 0b00000000#8]) = .ok (.setopt true false) := by decide

/-- SETMODE has no code: what is presented for it is its SETSYS (R64, R132; row 7 of R133's table). -/
theorem test_encode_setmode :
    encode Config.tc0 (.setmode 7) = .command [0b00001011#8, 0b10110010#8, 0b00000000#8] := by decide

theorem test_decode_reserved :
    decode (.command [0b00000000#8]) = .ok .reserved0 ∧ decode (.command [0b00001101#8]) = .ok .reservedD
    ∧ decode (.command [0b00001110#8]) = .ok .reservedE ∧ decode (.command [0b00001111#8]) = .ok .reservedF := by decide

theorem test_decode_no_code :
    decode (.command [0b00010000#8]) = .error .codeOutOfRange ∧ decode (.command []) = .error .emptyImage
    ∧ decode (.command [0b00000010#8, 0b00000000#8]) = .error .truncated := by decide

theorem test_decode_hdrInt : decode (.wire .hdrInt 0b00001001#8 0b10110010#8) = .ok (.hdrInt 9#8 0xB2#8) := by decide

theorem test_decode_hdrExt : decode (.wire .hdrExt 0b00010010#8 0b00110100#8) = .ok (.hdrExt 0x1234#16) := by decide

/-- L1-6: 0x0401 under Compact. -/
theorem test_decode_slotC :
    decode (.wire .slotC 0b00000100#8 0b00000001#8) = .ok (.slotC 1#6 1#10)
    ∧ decodeTableWord 16 0b0000010000000001 = some (.slotC 1#6 1#10) := by decide

/-- L1-6: 0x0801 under Extended; V-D8: 0x8801. -/
theorem test_decode_slotX :
    decode (.wire .slotX 0b00001000#8 0b00000001#8) = .ok (.slotX 0#1 1#4 1#11)
    ∧ decode (.wire .slotX 0b10001000#8 0b00000001#8) = .ok (.slotX 1#1 1#4 1#11) := by decide

theorem test_decode_slotFill :
    decode (.wire .slotC 0b11111111#8 0b11111111#8) = .ok .slotFill
    ∧ decodeTableWord 16 0b1111111111111111 = some .slotFill := by decide

theorem test_decode_table_commands :
    (List.range 16).map (decodeTableWord 8) =
      [some .reserved0, some (.scfg 0#16 0#16 0#32 0#32), some (.scale 0#11), some (.descale 0#32),
        some (.dec .compact false false []), some (.enc .compact false false 0#16 0#8 []), some (.encp 0#16),
        some (.enca 0#16), some .poll, some (.chrd 0), some (.chwr 0 0#32), some (.setsys 0#8 false),
        some (.setopt false false), some .reservedD, some .reservedE, some .reservedF] := by decide

/-! ## One step -/

/-- The next state, where there is one. -/
def next? (o : Host.Outcome State Fault Refusal) : Option State :=
  match o with
  | .next s => some s
  | .fault _ => none
  | .refused _ => none

/-- The response after one instruction. -/
def answer (i : Instr) (s : State) : Option Response := (next? (exec i s)).bind (fun t => t.response)

/-- The registers after one instruction. -/
def registers (i : Instr) (s : State) : Option (List Nat) := (next? (exec i s)).map (fun t => t.raw.toList.map BitVec.toNat)

/-- OUT after one instruction. -/
def outBytes (i : Instr) (s : State) : Option (List Byte) := (next? (exec i s)).map (fun t => Memory.readBytes t.out 0 16)

/-- TC0 after `SCFG a, b, c, d`. -/
def scaled (a b : InVal) (c d : TVal) : State := State.reset.withScaler a b c d

/-- TC1 after reset. -/
def reset1 : State := State.construct Config.tc1

/-- TC1 after `SCFG a, b, c, d`. -/
def scaled1 (a b : InVal) (c d : TVal) : State := reset1.withScaler a b c d

/-- TC0 after reset with these bytes in RX. -/
def buffered (rx : List Byte) : State := State.reset.receive rx

/-- F1 of section 2.3. -/
def f1 : List Byte :=
  [0x01#8, 0x01#8, 0x00#8, 0x64#8, 0x04#8, 0xC8#8, 0x09#8, 0x2C#8, 0x0D#8, 0x90#8, 0x11#8, 0xF4#8, 0x16#8, 0x58#8,
    0x1A#8, 0xBC#8]

/-- G1 of V-P7. -/
def g1 : List Byte :=
  [0x09#8, 0xB2#8, 0x05#8, 0xDC#8, 0x0C#8, 0x00#8, 0x17#8, 0xFF#8, 0x18#8, 0x00#8, 0x20#8, 0x01#8, 0x2B#8, 0xE8#8,
    0x33#8, 0xFF#8]

/-- H1 of V-P8. -/
def h1 : List Byte := [0x04#8, 0x55#8, 0x00#8, 0x0B#8, 0x04#8, 0x16#8] ++ List.replicate 10 0xFF#8

/-- P4: `SCFG 5, 5, ...` is stored, although unusable. -/
theorem test_scfg :
    next? (exec (.scfg 5#16 5#16 0xFFFF0000#32 0x00010000#32) State.reset) = some { State.reset with
      inMin := 5#16, inMax := 5#16, outMin := 0xFFFF0000#32, outMax := 0x00010000#32, active := true,
      response := some ⟨.ok, .none⟩ } := by decide

/-- V-S1: 49.975.. rounds to 50; V-S3: -0.5 rounds to -1. -/
theorem test_scale :
    answer (.scale 1535#11) (scaled 0#16 2047#16 0xFFFFFF9C#32 100#32) = some ⟨.ok, .value 50#32⟩
    ∧ answer (.scale 1#11) (scaled 0#16 4#16 0#32 0xFFFFFFFE#32) = some ⟨.ok, .value 0xFFFFFFFF#32⟩ := by decide

/-- V-S13: -65471.968.. is truncated; V-S10: Overflow of T. -/
theorem test_scale_fraction :
    answer (.scale 1#11) (scaled1 0#16 2047#16 0xFFFF0000#32 0x00010000#32) = some ⟨.ok, .value 0xFFFF0041#32⟩
    ∧ answer (.scale 2#11) (scaled 0#16 1#16 0#32 2147483647#32) = some ⟨.overflow, .none⟩ := by decide

/-- V-S6: the tie -0.5 rounds to -1, so Overflow; V-S1: the tie 1023.5 rounds to 1024. -/
theorem test_descale :
    answer (.descale 0xFFFFFC13#32) (scaled 100#16 200#16 0#32 1000#32) = some ⟨.overflow, .none⟩
    ∧ answer (.descale 0#32) (scaled 0#16 2047#16 0xFFFFFF9C#32 100#32) = some ⟨.ok, .raw 1024#11⟩ := by decide

/-- V-S13: -0.9995.. is truncated to 0, no Overflow; V-S12, inactive: 2048.0 is Overflow. -/
theorem test_descale_fraction :
    answer (.descale 0xFFFEFFC0#32) (scaled1 0#16 2047#16 0xFFFF0000#32 0x00010000#32) = some ⟨.ok, .raw 0#11⟩
    ∧ answer (.descale 134217728#32) reset1 = some ⟨.overflow, .none⟩ := by decide

/-- V-D4 under both Formats. -/
theorem test_dec :
    let b := [0x00#8, 0x00#8, 0x2C#8, 0x00#8, 0x30#8, 0x00#8, 0x58#8, 0x00#8, 0x60#8, 0x00#8] ++ List.replicate 6 0xFF#8
    answer (.dec .compact false true b) State.reset = some ⟨.ok, .decoded ⟨0#16, none, [⟨11, 0#11⟩], 6⟩⟩
    ∧ answer (.dec .extended false true b) State.reset
        = some ⟨.ok, .decoded ⟨0#16, none, [⟨5, 1024#11⟩, ⟨6, 0#11⟩, ⟨11, 0#11⟩], 4⟩⟩ := by decide

/-- V-D3: without the swap the first byte is the low one; V-D9: ShortBuffer. -/
theorem test_dec_order :
    answer (.dec .compact false false ([0x00#8, 0x00#8, 0x04#8, 0x01#8] ++ List.replicate 12 0xFF#8)) State.reset
      = some ⟨.ok, .decoded ⟨0#16, none, [⟨0, 260#11⟩], 6⟩⟩
    ∧ answer (.dec .compact false true (List.replicate 15 0#8)) State.reset = some ⟨.shortBuffer, .none⟩ := by decide

/-- V-E3. -/
theorem test_enc :
    outBytes (.enc .extended false true 0x1234#16 0xB2#8 [⟨7, 1024#11⟩, ⟨8, 2047#11⟩, ⟨9, 0#11⟩, ⟨10, 1#11⟩, ⟨11, 1365#11⟩])
        State.reset
      = some [0x12#8, 0x34#8, 0x3C#8, 0x00#8, 0x47#8, 0xFF#8, 0x48#8, 0x00#8, 0x50#8, 0x01#8, 0x5D#8, 0x55#8, 0xFF#8,
          0xFF#8, 0xFF#8, 0xFF#8] := by decide

/-- V-E5: the value and the fades are cut to their fields. -/
theorem test_enc_masks :
    outBytes (.enc .compact true true 0x1FF#16 0x01#8 [⟨2, 1500#11⟩]) State.reset
      = some ([0xFF#8, 0x01#8, 0x09#8, 0xDC#8] ++ List.replicate 12 0xFF#8) := by decide

/-- V-E8. -/
theorem test_encp :
    outBytes (.encp 0#16) State.reset
      = some [0x00#8, 0x01#8, 0x00#8, 0x00#8, 0x04#8, 0x00#8, 0x08#8, 0x00#8, 0x0C#8, 0x00#8, 0x10#8, 0x00#8, 0x14#8,
          0x00#8, 0x18#8, 0x00#8] := by decide

/-- V-E8. -/
theorem test_enca :
    outBytes (.enca 0#16) State.reset
      = some [0x00#8, 0x01#8, 0x1C#8, 0x00#8, 0x20#8, 0x00#8, 0x24#8, 0x00#8, 0x28#8, 0x00#8, 0x2C#8, 0x00#8, 0xFF#8,
          0xFF#8, 0xFF#8, 0xFF#8] := by decide

/-- V-P7: a frame of another system is decoded under Compact and then adopted. -/
theorem test_poll_adopts :
    registers .poll (buffered g1) = some [0, 476, 0, 0, 0, 1023, 0, 0, 1, 0, 1000, 0]
    ∧ answer .poll (buffered g1) = some ⟨.ok, .reports [⟨9#16, some 0xB2#8, .compact, 6, 1, true, true⟩]⟩
    ∧ (next? (exec .poll (buffered g1))).map (fun t => (t.system, t.format)) = some (0xB2#8, .extended) := by decide

/-- V-P12: a wire frame read with SWAP = 0; V-P6: ShortRead. -/
theorem test_poll_swap :
    registers .poll { buffered f1 with swap := false } = some [0, 0, 0, 0, 0, 0, 0, 0, 0, 0, 0, 9]
    ∧ answer .poll (buffered (f1.take 15)) = some ⟨.shortRead, .none⟩ := by decide

/-- V-S17: CHRD 3 of a register that holds 1535; P4: CHRD 0 of one that holds 3. -/
theorem test_chrd :
    answer (.chrd 3) ((scaled 0#16 2047#16 0xFFFFFF9C#32 100#32).writeRaw 3 1535#11) = some ⟨.ok, .value 50#32⟩
    ∧ answer (.chrd 0) ((scaled1 0#16 2047#16 0xFFFF0000#32 0x00010000#32).writeRaw 0 3#11)
        = some ⟨.ok, .value 0xFFFF00C1#32⟩ := by decide

/-- V-S17: CHWR 11, -99 writes 10; CHWR 3, 101 is Overflow. -/
theorem test_chwr :
    registers (.chwr 11 0xFFFFFF9D#32) (scaled 0#16 2047#16 0xFFFFFF9C#32 100#32)
      = some [0, 0, 0, 0, 0, 0, 0, 0, 0, 0, 0, 10]
    ∧ answer (.chwr 3 101#32) (scaled 0#16 2047#16 0xFFFFFF9C#32 100#32) = some ⟨.overflow, .none⟩ := by decide

/-- V-C1, and an unknown system. -/
theorem test_setsys :
    next? (exec (.setsys 0xB2#8 true) State.reset) = some { State.reset with
      system := 0xB2#8, format := .extended, internal := true, response := some ⟨.ok, .none⟩ }
    ∧ next? (exec (.setsys 0x55#8 true) State.reset) = some { State.reset with
      response := some ⟨.unknownSystem 0x55#8, .none⟩ } := by decide

/-- R131. -/
theorem test_setopt :
    next? (exec (.setopt false true) State.reset) = some { State.reset with
      swap := false, procall := true, response := some ⟨.ok, .none⟩ } := by decide

/-- P2: SETMODE 7 is SETSYS 0xB2, 0. -/
theorem test_setmode :
    next? (exec (.setmode 7) State.reset) = some { State.reset with
      system := 0xB2#8, format := .extended, internal := false, response := some ⟨.ok, .none⟩ } := by decide

/-- R147; P4. -/
theorem test_reserved :
    [Instr.reserved0, .reservedD, .reservedE, .reservedF].map (fun i => next? (exec i State.reset))
      = List.replicate 4 (some { State.reset with response := some ⟨.illegalCommand, .none⟩ }) := by decide

/-- R51 to R54, R59: the two bytes of each word, high byte first. -/
theorem test_wire :
    [Instr.hdrInt 9#8 0xB2#8, .hdrExt 0x1234#16, .slotC 11#6 1023#10, .slotX 0#1 11#4 2047#11, .slotFill].map
        (fun i => (next? (exec i (buffered [0x77#8]))).map (fun t => t.rx))
      = [some [0x77#8, 0x09#8, 0xB2#8], some [0x77#8, 0x12#8, 0x34#8], some [0x77#8, 0x2F#8, 0xFF#8],
        some [0x77#8, 0x5F#8, 0xFF#8], some [0x77#8, 0xFF#8, 0xFF#8]] := by decide

/-- A table word is the next step's instruction. -/
theorem test_withFetchWord :
    next? (step (State.reset.withFetchWord 8 0b1110)) = next? (exec .reservedE State.reset)
    ∧ next? (step (State.reset.withFetchWord 16 0x0401)) = next? (exec (.slotC 1#6 1#10) State.reset) := by decide

/-! ## The hypotheses of the statements are met -/

theorem runs {i : Instr} {s : State} (h : (next? (exec i s)).isSome = true) : ∃ t, exec i s = .next t := by
  cases e : exec i s with
  | next t => exact ⟨t, rfl⟩
  | fault r => cases r
  | refused r => rw [e] at h; exact absurd h (by simp [next?])

theorem answers {i : Instr} {s : State} {r : Response} (h : answer i s = some r) :
    ∃ t, exec i s = .next t ∧ t.response = some r := by
  cases e : exec i s with
  | next t => rw [answer, e] at h; exact ⟨t, rfl, h⟩
  | fault r => cases r
  | refused r => rw [answer, e] at h; exact absurd h (by simp [next?])

theorem gives {i : Instr} {s t : State} (h : next? (exec i s) = some t) : exec i s = .next t := by
  cases e : exec i s with
  | next u => rw [e] at h; simpa [next?] using h
  | fault r => cases r
  | refused r => rw [e] at h; exact absurd h (by simp [next?])

/-- `scaleSpec` by the machine's integer quotients. -/
theorem scaleSpec_of {s : State} {raw : RawVal} {n : ℤ} (h : scaleExact s raw = .ok n) :
    ¬ invalidRange s ∧ scaleSpec s raw = n := by
  rw [scaleExact_eq] at h
  by_cases hi : invalidRange s
  · rw [if_pos hi] at h; cases h
  · rw [if_neg hi] at h; cases h; exact ⟨hi, rfl⟩

/-- `descaleSpec` by the machine's integer quotients. -/
theorem descaleSpec_of {s : State} {value : TVal} {n : ℤ} (h : descaleExact s value = .ok n) :
    ¬ invalidRange s ∧ descaleSpec s value = n := by
  rw [descaleExact_eq] at h
  by_cases hi : invalidRange s
  · rw [if_pos hi] at h; cases h
  · rw [if_neg hi] at h; cases h; exact ⟨hi, rfl⟩

/-- TC0 with the external header and process-all mode. -/
def external : State := { State.reset with internal := false, procall := true }

/-- TC0 after `SETSYS 0xB2, 0`. -/
def extended : State := { State.reset with system := 0xB2#8, format := .extended, internal := false }

/-- TC0 in process-all mode. -/
def allFrames : State := { State.reset with procall := true }

theorem witness_StepRunsThePresentedInstruction :
    ((State.reset.withFetchWord 8 0b1000).inputs = .present (tableImage 8 0b1000) :: []
      ∧ decode (tableImage 8 0b1000) = .ok .poll)
    ∧ ((State.reset.withFetchWord 8 0b10000).inputs = .present (tableImage 8 0b10000) :: []
      ∧ decode (tableImage 8 0b10000) = .error .codeOutOfRange)
    ∧ (State.reset.withInputs [.receive f1]).inputs = .receive f1 :: []
    ∧ State.reset.inputs = [] := by decide

theorem witness_DecodeOfEncode :
    (Instr.enc .extended true false 0xFFFF#16 0xB2#8 (List.replicate 7 ⟨11, 2047#11⟩)).wf = true
    ∧ (Instr.dec .compact false true (List.replicate 16 0xFF#8)).wf = true
    ∧ (Instr.slotC 63#6 1022#10).wf = true ∧ (Instr.slotX 0#1 15#4 2047#11).wf = true ∧ (Instr.setmode 7).wf = true
    ∧ encode Config.tc0 (.setmode 7) = .command [0x0B#8, 0xB2#8, 0x00#8] := by decide

theorem witness_DecodedInstructionsAreExpressible : decode (.command [0x08#8]) = .ok .poll := by decide

theorem witness_ConstructedState : Config.tc0.wf = true ∧ Config.tc1.wf = true := by decide

theorem witness_ConstructedStateIsConsistent : Config.tc0.wf = true ∧ Config.tc1.wf = true := by decide

theorem witness_StepKeepsConsistency :
    (State.reset.withFetchWord 8 0b0101).Inv ∧ (next? (step (State.reset.withFetchWord 8 0b0101))).isSome = true := by decide

theorem witness_EveryOperationEndsWithOneStatus :
    Instr.poll.wf = true ∧ operation .poll = true ∧ Instr.slotFill.wf = true := by decide

theorem witness_StatusesHaveTheirCauses :
    (∃ t, exec (.dec .compact true true []) State.reset = .next t ∧ t.response = some ⟨.shortBuffer, .none⟩)
    ∧ (∃ t, exec .poll State.reset = .next t ∧ t.response = some ⟨.shortRead, .none⟩)
    ∧ (∃ t, exec (.chrd 0) (scaled 7#16 7#16 5#32 5#32) = .next t ∧ t.response = some ⟨.invalidRange, .none⟩)
    ∧ (∃ t, exec (.setsys 0x55#8 true) State.reset = .next t ∧ t.response = some ⟨.unknownSystem 0x55#8, .none⟩)
    ∧ (∃ t, exec (.chwr 0 2048#32) State.reset = .next t ∧ t.response = some ⟨.overflow, .none⟩)
    ∧ (∃ t, exec .reserved0 State.reset = .next t ∧ t.response = some ⟨.illegalCommand, .none⟩) :=
  ⟨answers (by decide), answers (by decide), answers (by decide), answers (by decide), answers (by decide),
    answers (by decide)⟩

theorem witness_RaisingWritesNothing :
    operation .poll = true ∧ Status.shortRead ≠ .ok
    ∧ ∃ t, exec .poll State.reset = .next t ∧ t.response = some ⟨.shortRead, .none⟩ :=
  ⟨rfl, by decide, answers (by decide)⟩

theorem witness_ReservedCodesRaiseIllegalCommand :
    (State.reset.withInputs [.present (.command [0x0#8])]).inputs = .present (.command (0x0#8 :: [])) :: []
    ∧ (State.reset.withInputs [.present (.command [0xD#8, 0xFF#8])]).inputs = .present (.command (0xD#8 :: [0xFF#8])) :: []
    ∧ (State.reset.withInputs [.present (.command [0xE#8])]).inputs = .present (.command (0xE#8 :: [])) :: []
    ∧ (State.reset.withInputs [.present (.command [0xF#8])]).inputs = .present (.command (0xF#8 :: [])) :: []
    ∧ reservedRow .reserved0 = true ∧ reservedRow .reservedD = true ∧ reservedRow .reservedE = true
    ∧ reservedRow .reservedF = true := by decide

theorem witness_RegistersWrittenOnlyByPollAndChwr :
    (∃ t, exec (.encp 0#16) State.reset = .next t) ∧ Instr.encp 0#16 ≠ .poll ∧ (∀ ch v, Instr.encp 0#16 ≠ .chwr ch v)
    ∧ (∃ t, exec (.chwr 11 5#32) State.reset = .next t) ∧ (0 : Channel) ≠ 11 :=
  ⟨runs (by decide), by decide, by simp, runs (by decide), by decide⟩

theorem witness_FieldsWrittenOnlyByTheirOperations :
    (∃ t, exec .poll (buffered g1) = .next t ∧ t.system ≠ (buffered g1).system ∧ t.rx ≠ (buffered g1).rx)
    ∧ (∃ t, exec (.setsys 0x12#8 false) State.reset = .next t ∧ t.format ≠ State.reset.format
      ∧ t.internal ≠ State.reset.internal)
    ∧ (∃ t, exec (.setopt false true) State.reset = .next t ∧ t.swap ≠ State.reset.swap
      ∧ t.procall ≠ State.reset.procall)
    ∧ (∃ t, exec (.scfg 1#16 2#16 3#32 4#32) State.reset = .next t ∧ t.inMin ≠ State.reset.inMin
      ∧ t.active ≠ State.reset.active)
    ∧ (∃ t, exec (.encp 0#16) State.reset = .next t ∧ Memory.read t.out 1 ≠ Memory.read State.reset.out 1) := by
  refine ⟨?_, ⟨_, rfl, by decide, by decide⟩, ⟨_, rfl, by decide, by decide⟩, ⟨_, rfl, by decide, by decide⟩,
    ⟨_, rfl, by decide⟩⟩
  exact ⟨_, execPoll_one (buffered g1) (by decide), by decide, by decide⟩

theorem witness_ActiveIsSetByScfgAndNeverCleared :
    (∃ t, exec (.scfg 5#16 5#16 0#32 0#32) State.reset = .next t) ∧ (∃ t, exec (.scale 0#11) State.reset = .next t)
    ∧ (∀ a b c d, Instr.scale 0#11 ≠ .scfg a b c d)
    ∧ (State.reset.active = false ∧ State.reset.cfg.tFrac ≤ 20) ∧ reset1.active = false ∧ reset1.cfg.tFrac ≤ 20 :=
  ⟨runs (by decide), runs (by decide), by simp, by decide, by decide, by decide⟩

theorem witness_BoundsOfAnInactiveScalerCannotBeObserved :
    State.reset.active = false ∧ (∃ t, exec (.scfg 1#16 2#16 3#32 4#32) State.reset = .next t)
    ∧ (∃ t, exec (.scale 2047#11) State.reset = .next t) ∧ ∀ a b c d, Instr.scale 2047#11 ≠ .scfg a b c d :=
  ⟨rfl, runs (by decide), runs (by decide), by simp⟩

theorem witness_OutIsNeverReadBack : ∃ t, exec (.enca 0xBEEF#16) State.reset = .next t := runs (by decide)

theorem witness_ScaleFollowsItsFormula :
    invalidRange (scaled 7#16 7#16 5#32 5#32)
    ∧ (¬ invalidRange (scaled 0#16 1#16 0#32 2147483647#32)
      ∧ fitsT (scaleSpec (scaled 0#16 1#16 0#32 2147483647#32) 1#11))
    ∧ (¬ invalidRange (scaled 0#16 1#16 0#32 2147483647#32)
      ∧ ¬ fitsT (scaleSpec (scaled 0#16 1#16 0#32 2147483647#32) 2#11)) := by
  have h1 : scaleExact (scaled 0#16 1#16 0#32 2147483647#32) 1#11 = .ok 2147483647 := by rfl
  have h2 : scaleExact (scaled 0#16 1#16 0#32 2147483647#32) 2#11 = .ok 4294967294 := by rfl
  rw [(scaleSpec_of h1).2, (scaleSpec_of h2).2]
  decide

theorem witness_ScaleIsExactAtTheBounds :
    ((scaled 100#16 2047#16 5#32 7#32).Inv ∧ (scaled 100#16 2047#16 5#32 7#32).active = true
      ∧ (scaled 100#16 2047#16 5#32 7#32).inMin ≠ (scaled 100#16 2047#16 5#32 7#32).inMax
      ∧ (scaled 100#16 2047#16 5#32 7#32).outMin ≠ (scaled 100#16 2047#16 5#32 7#32).outMax)
    ∧ ((100#11 : RawVal).toNat : ℤ) = (scaled 100#16 2047#16 5#32 7#32).inMin.toInt
    ∧ ((2047#11 : RawVal).toNat : ℤ) = (scaled 100#16 2047#16 5#32 7#32).inMax.toInt
    ∧ (scaled1 0#16 1#16 0#32 1#32).Inv := by decide

theorem witness_DescaleFollowsItsFormula :
    invalidRange (scaled 7#16 7#16 5#32 5#32)
    ∧ (¬ invalidRange (scaled 100#16 200#16 0#32 1000#32)
      ∧ fitsRaw (descaleSpec (scaled 100#16 200#16 0#32 1000#32) 0xFFFFFC17#32))
    ∧ (¬ invalidRange (scaled 100#16 200#16 0#32 1000#32)
      ∧ ¬ fitsRaw (descaleSpec (scaled 100#16 200#16 0#32 1000#32) 0xFFFFFC13#32)) := by
  have h1 : descaleExact (scaled 100#16 200#16 0#32 1000#32) 0xFFFFFC17#32 = .ok 0 := by rfl
  have h2 : descaleExact (scaled 100#16 200#16 0#32 1000#32) 0xFFFFFC13#32 = .ok (-1) := by rfl
  rw [(descaleSpec_of h1).2, (descaleSpec_of h2).2]
  decide

theorem witness_ChrdScalesTheRegister :
    invalidRange (scaled 7#16 7#16 5#32 5#32)
    ∧ (¬ invalidRange State.reset ∧ fitsT (scaleSpec State.reset State.reset.raw[(11 : Channel)]))
    ∧ (¬ invalidRange ((scaled 0#16 1#16 0#32 2147483647#32).writeRaw 3 2#11)
      ∧ ¬ fitsT (scaleSpec ((scaled 0#16 1#16 0#32 2147483647#32).writeRaw 3 2#11)
          ((scaled 0#16 1#16 0#32 2147483647#32).writeRaw 3 2#11).raw[(3 : Channel)])) := by
  have h1 : scaleExact State.reset State.reset.raw[(11 : Channel)] = .ok 0 := by rfl
  have h2 : scaleExact ((scaled 0#16 1#16 0#32 2147483647#32).writeRaw 3 2#11)
      ((scaled 0#16 1#16 0#32 2147483647#32).writeRaw 3 2#11).raw[(3 : Channel)] = .ok 4294967294 := by rfl
  rw [(scaleSpec_of h1).2, (scaleSpec_of h2).2]
  decide

theorem witness_ChwrDescalesIntoTheRegister :
    invalidRange (scaled 7#16 7#16 5#32 5#32)
    ∧ (¬ invalidRange State.reset ∧ fitsRaw (descaleSpec State.reset 2047#32))
    ∧ (¬ invalidRange State.reset ∧ ¬ fitsRaw (descaleSpec State.reset 2048#32))
    ∧ ((scaled 0#16 2047#16 5#32 5#32).active = true
      ∧ (scaled 0#16 2047#16 5#32 5#32).inMin ≠ (scaled 0#16 2047#16 5#32 5#32).inMax
      ∧ (scaled 0#16 2047#16 5#32 5#32).outMin = (scaled 0#16 2047#16 5#32 5#32).outMax) := by
  have h1 : descaleExact State.reset 2047#32 = .ok 2047 := by rfl
  have h2 : descaleExact State.reset 2048#32 = .ok 2048 := by rfl
  rw [(descaleSpec_of h1).2, (descaleSpec_of h2).2]
  decide

theorem witness_ScalerGuardsInOrder :
    (State.reset.active = false ∧ State.reset.cfg.tFrac = 0)
    ∧ ((scaled 7#16 7#16 5#32 5#32).active = true ∧ (scaled 7#16 7#16 5#32 5#32).inMin = (scaled 7#16 7#16 5#32 5#32).inMax)
    ∧ ((scaled 0#16 2047#16 5#32 5#32).active = true
      ∧ (scaled 0#16 2047#16 5#32 5#32).inMin ≠ (scaled 0#16 2047#16 5#32 5#32).inMax
      ∧ (scaled 0#16 2047#16 5#32 5#32).outMin = (scaled 0#16 2047#16 5#32 5#32).outMax) := by decide

theorem witness_InvalidRangeLastsUntilReconfigured :
    (scalerRow (.chwr 0 0#32) = true ∧ (scaled 7#16 7#16 5#32 5#32).active = true
      ∧ (scaled 7#16 7#16 5#32 5#32).inMin = (scaled 7#16 7#16 5#32 5#32).inMax)
    ∧ ((7#16 : InVal) ≠ 8#16 ∧ ∃ t1, exec (.scale 0#11) (scaled 7#16 8#16 5#32 5#32) = .next t1)
    ∧ (operation .poll = true ∧ scalerRow .poll = false ∧ ∃ t, exec .poll State.reset = .next t) :=
  ⟨by decide, ⟨by decide, runs (by decide)⟩, by decide, by decide, runs (by decide)⟩

theorem witness_QuantisersOverTheRationals : (-7 : ℤ) ≠ 0 ∧ (2 : ℤ) ≠ 0 := by decide

theorem witness_QuantisersAreOdd : (-7 : ℤ) ≠ 0 ∧ (2 : ℤ) ≠ 0 := by decide

/-- L1-1: TC0, `SCFG 0, 2047, 0, 20470`; TC1, `SCFG 0, 2047, -1.0, 1.0` and raw 1024, which comes back as 1023. -/
theorem witness_ScaleThenDescaleIsNear :
    ((scaled 0#16 2047#16 0#32 20470#32).Inv ∧ (scaled 0#16 2047#16 0#32 20470#32).cfg.tFrac = 0
      ∧ exec (.scale 2047#11) (scaled 0#16 2047#16 0#32 20470#32)
          = .next { scaled 0#16 2047#16 0#32 20470#32 with response := some ⟨.ok, .value 20470#32⟩ }
      ∧ exec (.descale 20470#32) (scaled 0#16 2047#16 0#32 20470#32)
          = .next { scaled 0#16 2047#16 0#32 20470#32 with response := some ⟨.ok, .raw 2047#11⟩ }
      ∧ (|(scaled 0#16 2047#16 0#32 20470#32).inMax.toInt - (scaled 0#16 2047#16 0#32 20470#32).inMin.toInt| : ℤ)
          < |(scaled 0#16 2047#16 0#32 20470#32).outMax.toInt - (scaled 0#16 2047#16 0#32 20470#32).outMin.toInt|)
    ∧ ((scaled1 0#16 2047#16 0xFFFF0000#32 0x00010000#32).Inv
      ∧ (scaled1 0#16 2047#16 0xFFFF0000#32 0x00010000#32).cfg.tFrac = 16
      ∧ exec (.scale 1024#11) (scaled1 0#16 2047#16 0xFFFF0000#32 0x00010000#32)
          = .next { scaled1 0#16 2047#16 0xFFFF0000#32 0x00010000#32 with response := some ⟨.ok, .value 32#32⟩ }
      ∧ exec (.descale 32#32) (scaled1 0#16 2047#16 0xFFFF0000#32 0x00010000#32)
          = .next { scaled1 0#16 2047#16 0xFFFF0000#32 0x00010000#32 with response := some ⟨.ok, .raw 1023#11⟩ }) :=
  ⟨⟨by decide, rfl, gives (by decide), gives (by decide), by decide⟩,
    by decide, rfl, gives (by decide), gives (by decide)⟩

theorem witness_DecDecodesAFrame :
    (List.replicate 15 0#8 : List Byte).length < 16 ∧ (List.replicate 16 0#8 : List Byte).length = 16 := by decide

theorem witness_ShortBufferIsDecsAlone :
    ([] : List Byte).length < 16 ∧ operation (.dec .compact true true []) = true
    ∧ ∃ t, exec (.dec .compact true true []) State.reset = .next t ∧ t.response = some ⟨.shortBuffer, .none⟩ :=
  ⟨by decide, rfl, answers (by decide)⟩

theorem witness_EncWritesTheFrame :
    ([] : List Sample).length ≤ 7 ∧ (List.replicate 7 ⟨11, 2047#11⟩ : List Sample).length ≤ 7 ∧ Memory.wf State.reset.out
    ∧ 7 < (List.replicate 8 ⟨0, 0#11⟩ : List Sample).length := by decide

theorem witness_EncpSendsThePrimaryChannels :
    Memory.wf State.reset.out ∧ Memory.wf (State.reset.writeOut (List.replicate 16 0xFF#8)).out := by decide

theorem witness_EncaSendsTheAuxiliaryChannels :
    Memory.wf State.reset.out ∧ Memory.wf (State.reset.writeOut (List.replicate 16 0xFF#8)).out := by decide

theorem witness_DecodeOfEncodedFrame :
    Memory.wf State.reset.out ∧ ([⟨11, 1023#11⟩, ⟨0, 0#11⟩] : List Sample).length ≤ 7
    ∧ (∀ x ∈ ([⟨11, 1023#11⟩, ⟨0, 0#11⟩] : List Sample), x.val.toNat ≤ (valMask .compact).toNat)
    ∧ ∀ x ∈ (List.replicate 7 ⟨11, 2047#11⟩ : List Sample), x.val.toNat ≤ (valMask .extended).toNat := by decide

theorem witness_FillerIsWrittenAndDiscarded :
    Memory.wf State.reset.out ∧ (List.replicate 6 ⟨0, 0#11⟩ : List Sample).length ≤ 7
    ∧ (List.replicate 6 ⟨0, 0#11⟩ : List Sample).length ≤ 6 ∧ 6 < 7 := by decide

theorem witness_SlotByteOrder : true = Config.tc0.nativeLE := by decide

theorem witness_HeaderHasTwoReadings : f1.length = 16 := by decide

theorem witness_ReadOnlyOperationsAreIdempotent :
    readOnlyRow (.enca 0#16) = true ∧ Memory.wf State.reset.out ∧ ∃ t, exec (.enca 0#16) State.reset = .next t :=
  ⟨rfl, by decide, runs (by decide)⟩

theorem witness_PollShortRead : (buffered (f1.take 15)).rx.length < 16 ∧ State.reset.rx.length < 16 := by decide

theorem witness_PollConsumesWholeFrames :
    (16 ≤ (buffered f1).rx.length ∧ (buffered f1).procall = false)
    ∧ (16 ≤ (allFrames.receive (f1 ++ g1.take 15)).rx.length
      ∧ (allFrames.receive (f1 ++ g1.take 15)).procall = true) := by decide

theorem witness_DiscardStaleKeepsTheFreshestFrame : State.reset.procall = false ∧ f1.length = 16 := by decide

theorem witness_ProcessAllTakesFramesInOrder :
    allFrames.procall = true ∧ f1.length = 16 ∧ (f1.take 15).length < 16 ∧ 16 ≤ g1.length := by decide

theorem witness_PollIngestsOneFrame :
    ((buffered g1).rx.length = 16 ∧ (buffered g1).internal = true
      ∧ (buffered g1).rx.getD 1 0#8 ≠ (buffered g1).system
      ∧ known (buffered g1).cfg ((buffered g1).rx.getD 1 0#8) = true)
    ∧ ((buffered f1).rx.length = 16 ∧ (buffered f1).rx.getD 1 0#8 = (buffered f1).system)
    ∧ ((buffered h1).rx.length = 16 ∧ known (buffered h1).cfg ((buffered h1).rx.getD 1 0#8) = false)
    ∧ ((external.receive f1).rx.length = 16 ∧ (external.receive f1).internal = false) := by decide

/-- H1 names channels 0 and 1 in slots 0 and 1, and no slot names channel 2. -/
theorem witness_LastSlotWins :
    (buffered h1).rx.length = 16
    ∧ (fieldId .compact (frameSlotNumber Config.tc0 true h1 1) = (1 : Channel).val
      ∧ ∀ j < 7, 1 < j → fieldId .compact (frameSlotNumber Config.tc0 true h1 j) ≠ (1 : Channel).val)
    ∧ (∀ j < 7, fieldId .compact (frameSlotNumber Config.tc0 true h1 j) ≠ (2 : Channel).val)
    ∧ ∃ t, exec .poll (buffered h1) = .next t :=
  ⟨by decide, by decide, by decide, runs (by decide)⟩

theorem witness_UnknownSystemKeepsTheConfiguration :
    allFrames.internal = true ∧ allFrames.procall = true ∧ h1.length = 16
    ∧ known allFrames.cfg (h1.getD 1 0#8) = false := by decide

theorem witness_AdoptedFormatAppliesFromTheNextFrame :
    allFrames.internal = true ∧ allFrames.procall = true ∧ g1.length = 16 ∧ f1.length = 16
    ∧ g1.getD 1 0#8 ≠ allFrames.system ∧ fmtOf allFrames.cfg (g1.getD 1 0#8) = some .extended := by decide

theorem witness_ExternalModeNeverAdopts :
    (external.receive g1).internal = false
    ∧ ∃ t, exec .poll (external.receive g1) = .next t
      ∧ t.response = some ⟨.ok, .reports [⟨0x09B2#16, none, .compact, 6, 1, true, false⟩]⟩ :=
  ⟨rfl, answers (by decide)⟩

theorem witness_ReportsAccountForTheirFrame :
    (∃ t, exec .poll (buffered g1) = .next t
      ∧ t.response = some ⟨.ok, .reports [⟨9#16, some 0xB2#8, .compact, 6, 1, true, true⟩]⟩)
    ∧ (buffered g1).internal = true ∧ (external.receive g1).internal = false
    ∧ ∃ t, exec .poll (external.receive g1) = .next t
      ∧ t.response = some ⟨.ok, .reports [⟨0x09B2#16, none, .compact, 6, 1, true, false⟩]⟩ :=
  ⟨answers (by decide), rfl, rfl, answers (by decide)⟩

/-- A sender on an instance with the other byte lanes and swap, and a receiver on TC0. -/
theorem witness_BothBatchesRestoreAPeersRegisters :
    let s : State := { (State.construct { Config.tc0 with nativeLE := false, rstSwap := false }).writeRaw 3 700#11 with rx := [] }
    Memory.wf s.out ∧ (∃ s1, exec (.encp 0#16) s = .next s1 ∧ ∃ s2, exec (.enca 1#16) s1 = .next s2)
    ∧ allFrames.format = s.format ∧ allFrames.internal = s.internal ∧ allFrames.system = s.system
    ∧ (allFrames.cfg.nativeLE != allFrames.swap) = (s.cfg.nativeLE != s.swap) ∧ allFrames.procall = true :=
  ⟨by decide, ⟨_, rfl, _, rfl⟩, by decide, by decide, by decide, by decide, by decide⟩

theorem witness_SetsysSetsAKnownSystem :
    fmtOf State.reset.cfg 0xB2#8 = some .extended ∧ known State.reset.cfg 0x55#8 = false := by decide

theorem witness_SetmodeIsItsSetsys : State.reset.cfg.wf = true ∧ reset1.cfg.wf = true := by decide

theorem witness_LayoutOfAWireWordMakesNoDifference :
    (State.reset.withInputs [.present (.wire .slotX 0xFF#8 0xFF#8)]).inputs = .present (.wire .slotX 0xFF#8 0xFF#8) :: []
    ∧ (State.reset.withInputs [.present (.wire .hdrInt 0x09#8 0xB2#8)]).inputs
        = .present (.wire .hdrInt 0x09#8 0xB2#8) :: [] := by decide

/-- An internal header and Compact slots after reset; an external header and Extended slots after SETSYS 0xB2, 0. -/
theorem witness_WordsThenPollReadTheirFields :
    (State.reset.rx = [] ∧ State.reset.swap = State.reset.cfg.nativeLE
      ∧ headerWord State.reset.internal (some 0x01#8) (.hdrInt 9#8 0x01#8)
      ∧ (List.replicate 6 (Instr.slotC 1#6 5#10) ++ [Instr.slotFill]).length = 7
      ∧ List.Forall₂ (slotFields State.reset.format) (List.replicate 6 (Instr.slotC 1#6 5#10) ++ [Instr.slotFill])
          (List.replicate 6 (1, 5) ++ [(63, 1023)]))
    ∧ (extended.rx = [] ∧ extended.swap = extended.cfg.nativeLE
      ∧ headerWord extended.internal none (.hdrExt 0x1234#16)
      ∧ (List.replicate 6 (Instr.slotX 1#1 11#4 2047#11) ++ [Instr.slotFill]).length = 7
      ∧ List.Forall₂ (slotFields extended.format) (List.replicate 6 (Instr.slotX 1#1 11#4 2047#11) ++ [Instr.slotFill])
          (List.replicate 6 (11, 2047) ++ [(15, 2047)])) := by
  refine ⟨⟨rfl, rfl, ⟨_, _, rfl, rfl⟩, rfl, ?_⟩, ⟨rfl, rfl, ⟨_, rfl, rfl⟩, rfl, ?_⟩⟩
  · have h : slotFields .compact (.slotC 1#6 5#10) (1, 5) := .inl ⟨_, _, rfl, rfl⟩
    exact .cons h (.cons h (.cons h (.cons h (.cons h (.cons h (.cons (.inr ⟨rfl, rfl⟩) .nil))))))
  · have h : slotFields .extended (.slotX 1#1 11#4 2047#11) (11, 2047) := .inl ⟨_, _, _, rfl, rfl⟩
    exact .cons h (.cons h (.cons h (.cons h (.cons h (.cons h (.cons (.inr ⟨rfl, rfl⟩) .nil))))))

end Sys2Proof.Tests
end

section
/-! The quantisers of R4: each is first carried to its definition over the rationals, where its bounds are known. -/

namespace Sys2Proof.Machine

/-- R4 for `trunc0`, through `truncQ` of the exact quotient. -/
theorem trunc0_bounds (n m : ℤ) (hm : m ≠ 0) :
    |(trunc0 ⟨n, m⟩ : ℚ)| ≤ |(n : ℚ) / m| ∧ |(n : ℚ) / m| < |(trunc0 ⟨n, m⟩ : ℚ)| + 1
      ∧ 0 ≤ (trunc0 ⟨n, m⟩ : ℚ) * ((n : ℚ) / m) := by
  rw [trunc0_eq_truncQ n m hm]
  exact truncQ_bounds _

/-- R4 for `rha`, through `rhaQ` of the exact quotient. -/
theorem rha_near (n m : ℤ) (hm : m ≠ 0) :
    |(rha ⟨n, m⟩ : ℚ) - (n : ℚ) / m| ≤ 1 / 2
      ∧ (|(rha ⟨n, m⟩ : ℚ) - (n : ℚ) / m| = 1 / 2 → |(n : ℚ) / m| < |(rha ⟨n, m⟩ : ℚ)|) := by
  rw [rha_eq_rhaQ n m hm]
  exact rhaQ_near _

/-- Settles O25: both quantisers agree with R4's definitions over the rationals, whose bounds carry over; the rule's seven
examples are evaluated. -/
theorem quantisersOverTheRationals : Obligations.QuantisersOverTheRationals := by
  unfold Obligations.QuantisersOverTheRationals
  constructor
  · intro n m hm
    obtain ⟨hnear, htie⟩ := rha_near n m hm
    exact ⟨trunc0_bounds n m hm, trunc0_eq_truncQ n m hm, hnear, htie, rha_eq_rhaQ n m hm⟩
  · decide

end Sys2Proof.Machine
end

section
/-! What each meaning keeps of the state, in the form of `execPoll_frame`, and R21: SCFG alone writes ACTIVE, and the scaler
is the identity while ACTIVE is 0. -/

namespace Sys2Proof.Machine

variable {s t : State}

/-! ## What a meaning keeps -/

/-- SCALE writes the response port alone (R72). -/
theorem execScale_frame (raw : RawVal) (h : execScale raw s = .next t) : t = { s with response := t.response } := by
  rcases execScale_next raw h with ⟨-, rfl⟩ | ⟨-, -, rfl⟩ | ⟨-, -, rfl⟩ <;> rfl

/-- DESCALE writes the response port alone (R73). -/
theorem execDescale_frame (value : TVal) (h : execDescale value s = .next t) :
    t = { s with response := t.response } := by
  rcases execDescale_next value h with ⟨-, rfl⟩ | ⟨-, -, rfl⟩ | ⟨-, -, rfl⟩ <;> rfl

/-- CHWR writes the register file and the response port alone (R78). -/
theorem execChwr_frame (ch : Channel) (value : TVal) (h : execChwr ch value s = .next t) :
    t = { s with raw := t.raw, response := t.response } := by
  rcases execChwr_next ch value h with ⟨-, rfl⟩ | ⟨-, -, rfl⟩ | ⟨-, -, rfl⟩ <;> rfl

/-- DEC writes the response port alone (R90). -/
theorem execDec_frame (f : Format) (internal swap : Bool) (bytes : List Byte)
    (h : execDec f internal swap bytes s = .next t) : t = { s with response := t.response } := by
  rcases execDec_next f internal swap bytes h with ⟨-, rfl⟩ | ⟨-, rfl⟩ <;> rfl

/-- ENC writes OUT and the response port alone (R92). -/
theorem execEnc_frame (f : Format) (internal swap : Bool) (fades : Fades) (system : Byte) (samples : List Sample)
    (h : execEnc f internal swap fades system samples s = .next t) :
    t = { s with out := t.out, response := t.response } := by
  obtain ⟨-, rfl⟩ := execEnc_next f internal swap fades system samples h
  rfl

/-- ENCP and ENCA write OUT and the response port alone (R94, R95). -/
theorem encodeBatch_frame (channels : List Channel) (fades : Fades) (h : encodeBatch channels fades s = .next t) :
    t = { s with out := t.out, response := t.response } := by
  obtain rfl := encodeBatch_next channels fades h
  rfl

/-- SETSYS and SETMODE write SYSTEM, FORMAT, INTERNAL and the response port alone (R130, R132). -/
theorem setSystem_frame (sys : Byte) (internal : Bool) (h : setSystem sys internal s = .next t) :
    t = { s with system := t.system, format := t.format, internal := t.internal, response := t.response } := by
  rcases setSystem_next sys internal h with ⟨-, rfl⟩ | ⟨f, -, rfl⟩ <;> rfl

/-! ## ACTIVE (R21) -/

/-- SCFG sets ACTIVE. -/
theorem execScfg_active (a b : InVal) (c d : TVal) (h : execScfg a b c d s = .next t) : t.active = true :=
  congrArg State.active (complete_next _ h)

/-- No instruction but SCFG writes ACTIVE. -/
theorem exec_active_of_ne_scfg (i : Instr) (hi : ∀ a b c d, i ≠ .scfg a b c d) (h : exec i s = .next t) :
    t.active = s.active := by
  cases i with
  | scfg a b c d => exact absurd rfl (hi a b c d)
  | scale raw => rw [execScale_frame raw h]
  | chrd ch => rw [execScale_frame s.raw[ch] h]
  | descale value => rw [execDescale_frame value h]
  | chwr ch value => rw [execChwr_frame ch value h]
  | dec f internal swap bytes => rw [execDec_frame f internal swap bytes h]
  | enc f internal swap fades system samples =>
      rw [execEnc_frame f internal swap fades system samples h]
  | encp fades => rw [encodeBatch_frame primaryChannels fades h]
  | enca fades => rw [encodeBatch_frame auxiliaryChannels fades h]
  | poll => rw [execPoll_frame h]
  | setsys sys internal => rw [setSystem_frame sys internal h]
  | setmode m => rw [setSystem_frame _ _ h]
  | setopt swap procall => rw [complete_next _ h]; rfl
  | reserved0 | reservedD | reservedE | reservedF => rw [raise_next _ h]; rfl
  | hdrInt | hdrExt | slotC | slotX | slotFill => cases h; rfl

/-! ## The scaler while it answers -/

/-- SCALE answers its formula when it is defined and representable (R72, R75). -/
theorem execScale_of_fitsT (raw : RawVal) (hi : ¬ invalidRange s) (hf : fitsT (scaleSpec s raw)) :
    execScale raw s = .next (s.respond .ok (.value (BitVec.ofInt 32 (scaleSpec s raw)))) := by
  rw [execScale, scaleValue_eq, if_neg hi, if_pos hf]
  rfl

/-- DESCALE answers its formula when it is defined and representable (R73, R75). -/
theorem execDescale_of_fitsRaw (value : TVal) (hi : ¬ invalidRange s) (hf : fitsRaw (descaleSpec s value)) :
    execDescale value s = .next (s.respond .ok (.raw (BitVec.ofInt 11 (descaleSpec s value)))) := by
  rw [execDescale, descaleValue_eq, if_neg hi, if_pos hf]
  rfl

/-- `trunc0` leaves an integer as it is (R4). -/
@[simp] theorem truncQ_intCast (n : ℤ) : truncQ n = n := by
  simp [truncQ]

/-- `rha` leaves an integer as it is: two nearest integers of one value less than 1 apart are equal (R4). -/
@[simp] theorem rhaQ_intCast (n : ℤ) : rhaQ n = n := by
  obtain ⟨hnear, -⟩ := rhaQ_near n
  have hlt : |rhaQ n - n| < 1 := by
    have : |((rhaQ n - n : ℤ) : ℚ)| < 1 := by push_cast; linarith
    exact_mod_cast this
  have := Int.abs_lt_one_iff.1 hlt
  omega

/-! ## The inactive scaler is the identity (R21) -/

/-- An inactive scaler has no range to reject. -/
theorem not_invalidRange_of_inactive (ha : s.active = false) : ¬ invalidRange s := by
  simp [invalidRange, ha]

/-- The T value `raw` fits T: 11 bits of raw value and at most 20 of fraction are 31 (R72, `W - F >= 12`). -/
theorem fitsT_scaleSpec_of_inactive (raw : RawVal) (ha : s.active = false) (hF : s.cfg.tFrac ≤ 20) :
    fitsT (scaleSpec s raw) := by
  have hraw : (raw.toNat : ℤ) ≤ 2047 := by have := raw.isLt; omega
  have hpow : (2 : ℤ) ^ s.cfg.tFrac ≤ 2 ^ 20 := pow_le_pow_right₀ (by norm_num) hF
  have hle : (raw.toNat : ℤ) * 2 ^ s.cfg.tFrac ≤ 2047 * 2 ^ 20 := mul_le_mul hraw hpow (by positivity) (by norm_num)
  have hge : 0 ≤ (raw.toNat : ℤ) * 2 ^ s.cfg.tFrac := by positivity
  rw [scaleSpec, if_pos ha]
  constructor <;> linarith

/-- DESCALE's quotient for the T value `raw` is the integer `raw`, which either quantiser leaves as it is. -/
theorem descaleSpec_of_inactive (raw : RawVal) (v : TVal) (ha : s.active = false)
    (hv : v.toInt = (raw.toNat : ℤ) * 2 ^ s.cfg.tFrac) : descaleSpec s v = raw.toNat := by
  have hq : (v.toInt : ℚ) / 2 ^ s.cfg.tFrac = ((raw.toNat : ℤ) : ℚ) := by
    rw [hv, div_eq_iff (by positivity)]
    push_cast
    rfl
  rw [descaleSpec, if_neg (by simp [ha]), if_pos ha, hq]
  simp only [rhaQ_intCast, truncQ_intCast, ite_self]

/-- SCALE of `raw` answers the T value `raw` while ACTIVE is 0, and DESCALE answers it back. -/
theorem scale_descale_of_inactive (raw : RawVal) (ha : s.active = false) (hF : s.cfg.tFrac ≤ 20) :
    ∃ v : TVal, v.toInt = (raw.toNat : ℤ) * 2 ^ s.cfg.tFrac
      ∧ exec (.scale raw) s = .next (s.respond .ok (.value v))
      ∧ exec (.descale v) s = .next (s.respond .ok (.raw raw)) := by
  have hi := not_invalidRange_of_inactive ha
  have hf := fitsT_scaleSpec_of_inactive raw ha hF
  have hv : (BitVec.ofInt 32 (scaleSpec s raw)).toInt = (raw.toNat : ℤ) * 2 ^ s.cfg.tFrac := by
    rw [toInt_ofInt_of_fitsT _ hf, scaleSpec, if_pos ha]
  have hd := descaleSpec_of_inactive raw _ ha hv
  have hraw : fitsRaw (raw.toNat : ℤ) := by have := raw.isLt; constructor <;> omega
  have hdescale := execDescale_of_fitsRaw _ hi (hd ▸ hraw)
  rw [hd, BitVec.ofInt_natCast, BitVec.ofNat_toNat, BitVec.setWidth_eq] at hdescale
  exact ⟨_, hv, execScale_of_fitsT raw hi hf, hdescale⟩

/-- Settles O14: reset clears ACTIVE, SCFG sets it, the frame of every other meaning keeps it; and while it is 0 the T value
of a raw value fits T and its quotient is whole. -/
theorem activeIsSetByScfgAndNeverCleared : Obligations.ActiveIsSetByScfgAndNeverCleared := by
  unfold Obligations.ActiveIsSetByScfgAndNeverCleared
  refine ⟨fun _ => rfl, fun i s t h => ⟨?_, fun hi => exec_active_of_ne_scfg i hi h⟩,
    fun s raw ha hF => scale_descale_of_inactive raw ha hF⟩
  rintro ⟨a, b, c, d, rfl⟩
  exact execScfg_active a b c d h

end Sys2Proof.Machine
end

section
/-! Byte order (R3, R36): the byte swap as a number, and the wire-conformant setting SWAP = NATIVE_LE. -/

namespace Sys2Proof.Machine

/-- The byte swap as a number (R3): the low byte moves to the high position, the high byte to the low one. -/
theorem bswap16_toNat (w : SlotWord) : (bswap16 w).toNat = 256 * (w.toNat % 256) + w.toNat / 256 := by
  rw [bswap16_eq, be16_toNat, loByte_toNat, hiByte_toNat]

/-- With SWAP = NATIVE_LE the first byte is the high one, as on the wire (R36). -/
theorem slotNumber_self (nativeLE : Bool) (b0 b1 : Byte) :
    slotNumber nativeLE nativeLE b0 b1 = 256 * b0.toNat + b1.toNat := by
  simp [slotNumber]

/-- Settles O38: the slot word is `slotNumber` of its bytes, which is the wire's big-endian number when SWAP is
NATIVE_LE; each reading and writing of two bytes undoes the other, and the swap exchanges them. -/
theorem slotByteOrder : Obligations.SlotByteOrder := by
  unfold Obligations.SlotByteOrder
  intro cfg swap b0 b1 w
  have hwire : swap = cfg.nativeLE → (slotWord cfg swap b0 b1).toNat = 256 * b0.toNat + b1.toNat := by
    rintro rfl
    rw [slotWord_toNat, slotNumber_self]
  exact ⟨slotWord_toNat cfg swap b0 b1, hwire, slotWord_slotBytes cfg swap w, slotBytes_slotWord cfg swap b0 b1,
    bswap16_bswap16 w, native16_nativeBytes cfg w, be16_toNat b0 b1, le16_toNat b0 b1, bswap16_toNat w⟩

end Sys2Proof.Machine
end

section
/-! The fields of a slot word (R55 to R59): their bounds, the value an insertion keeps, bit 15, and the filler on encode. -/

namespace Sys2Proof.Machine

/-! ## Bounds of the extracted fields (R55) -/

/-- An id extracted is at most its mask, shifted down (R2, R55): 63 under Compact, 15 under Extended. -/
theorem slotId_le (f : Format) (w : SlotWord) : slotId f w ≤ (idMask f >>> shift f).toNat := by
  rw [slotId, BitVec.toNat_ushiftRight, BitVec.toNat_ushiftRight, BitVec.toNat_and, Nat.shiftRight_eq_div_pow,
    Nat.shiftRight_eq_div_pow]
  exact Nat.div_le_div_right Nat.and_le_right

/-- A value extracted is at most its mask (R2, R55): 1023 under Compact, 2047 under Extended. -/
theorem slotVal_le (f : Format) (w : SlotWord) : (slotVal f w).toNat ≤ (valMask f).toNat := by
  rw [slotVal, BitVec.toNat_setWidth, BitVec.toNat_and]
  exact (Nat.mod_le _ _).trans Nat.and_le_right

/-- Settles O34: mask and shift read the fields as numbers, and the fields have 6 and 10, or 4 and 11, bits. -/
theorem extractionReadsTheFields : Obligations.ExtractionReadsTheFields := by
  unfold Obligations.ExtractionReadsTheFields
  intro f w
  exact ⟨slotId_eq f w, slotVal_toNat f w, slotId_le .compact w, slotVal_le .compact w, slotId_le .extended w,
    slotVal_le .extended w⟩

/-! ## Insertion (R56) -/

/-- A Format's value mask, cut to a register's width, is all ones below `shift`; masking with it is the remainder. -/
theorem toNat_and_valMask (f : Format) (v : RawVal) :
    (v &&& (valMask f).setWidth 11).toNat = v.toNat % ((valMask f).toNat + 1) := by
  rw [BitVec.toNat_and]
  cases f
  · exact Nat.and_two_pow_sub_one_eq_mod v.toNat 10
  · exact Nat.and_two_pow_sub_one_eq_mod v.toNat 11

/-- Extraction gives back the inserted value under the Format's mask (R56). -/
theorem slotVal_insertSlot (f : Format) (x : Sample) :
    slotVal f (insertSlot f x) = x.val &&& (valMask f).setWidth 11 :=
  BitVec.eq_of_toNat_eq ((slotVal_insertSlot_toNat f x).trans (toNat_and_valMask f x.val).symm)

/-- Settles O35: the inserted word is the sample's number, and each field is read back from it. -/
theorem insertionThenExtraction : Obligations.InsertionThenExtraction := by
  unfold Obligations.InsertionThenExtraction
  intro f x
  exact ⟨insertSlot_toNat f x, slotId_insertSlot f x, slotVal_insertSlot f x⟩

/-! ## Bit 15 (R58) -/

/-- Bits set outside a mask are not seen under it. -/
theorem or_and_of_disjoint {w b m : SlotWord} (h : b &&& m = 0#16) : (w ||| b) &&& m = w &&& m := by
  rw [BitVec.and_comm, BitVec.and_or_distrib_left, BitVec.and_comm m b, h, BitVec.or_zero, BitVec.and_comm]

/-- Bit 15 lies outside the id field under Extended (R54). -/
@[simp] theorem slotId_extended_or_bit15 (w : SlotWord) : slotId .extended (w ||| 0x8000#16) = slotId .extended w := by
  rw [slotId, or_and_of_disjoint (by decide), slotId]

/-- Bit 15 lies outside the value field under Extended (R54). -/
@[simp] theorem slotVal_extended_or_bit15 (w : SlotWord) :
    slotVal .extended (w ||| 0x8000#16) = slotVal .extended w := by
  rw [slotVal, or_and_of_disjoint (by decide), slotVal]

/-- Bit 15 is the top bit of the id field under Compact (R53). -/
theorem slotId_compact_or_bit15 (w : SlotWord) : 32 ≤ slotId .compact (w ||| 0x8000#16) := by
  have hbit : 0x8000 ≤ (w ||| 0x8000#16).toNat := by
    rw [BitVec.toNat_or]
    exact Nat.right_le_or
  rw [slotId_eq, fieldId]
  omega

/-- A slot is discarded exactly when its channelId names no channel (R57). -/
theorem slotSample_eq_none_iff (f : Format) (w : SlotWord) : slotSample f w = none ↔ 12 ≤ slotId f w := by
  simp [slotSample]

/-- Settles O36: bit 15 lies outside both fields under Extended, and adds 32 to the id under Compact. -/
theorem bit15OfASlot : Obligations.Bit15OfASlot := by
  unfold Obligations.Bit15OfASlot
  intro w
  have hid := slotId_compact_or_bit15 w
  have hsample : slotSample .extended (w ||| 0x8000#16) = slotSample .extended w := by
    simp only [slotSample, slotId_extended_or_bit15, slotVal_extended_or_bit15]
  exact ⟨slotId_extended_or_bit15 w, slotVal_extended_or_bit15 w, hsample, hid,
    (slotSample_eq_none_iff _ _).2 (by omega)⟩

/-! ## The filler (R59) -/

/-- Both bytes of the filler are 0xFF, in either byte order (R59). -/
@[simp] theorem slotBytes_fillSlot (cfg : Config) (swap : Bool) : slotBytes cfg swap fillSlot = (0xFF#8, 0xFF#8) := by
  have hswap : swapIf swap fillSlot = fillSlot := by cases swap <;> rfl
  rw [slotBytes, hswap, nativeBytes]
  cases cfg.nativeLE <;> rfl

/-- A position beyond the samples carries the filler (R59). -/
theorem encodeSlot_of_length_le {samples : List Sample} {i : Nat} (f : Format) (h : samples.length ≤ i) :
    encodeSlot samples f i = fillSlot := by
  rw [encodeSlot, List.getElem?_eq_none h]

/-- The bytes of OUT at slot `i` after a frame is written to it (R93). -/
theorem read_writeBytes_slot (m : Memory) (hm : Memory.wf m) (cfg : Config) (samples : List Sample) (fades : Fades)
    (system : Byte) (internal : Bool) (f : Format) (swap : Bool) (i : Nat) (hi : i < 7) :
    let out := Memory.writeBytes m 0 (encodeFrame cfg samples fades system internal f swap)
    Memory.read out (2 + 2 * i) = (slotBytes cfg swap (encodeSlot samples f i)).1
    ∧ Memory.read out (3 + 2 * i) = (slotBytes cfg swap (encodeSlot samples f i)).2 := by
  obtain ⟨hfirst, hsecond⟩ := encodeFrame_slot cfg samples fades system internal f swap i hi
  rw [← hfirst, ← hsecond]
  constructor <;> rw [Memory.read_writeBytes _ _ _ hm, if_pos (by rw [encodeFrame_length]; omega), Nat.sub_zero]

/-- ENC of a list the ports can carry writes its frame to OUT (R92). -/
theorem execEnc_of_length_le (s : State) (f : Format) (internal swap : Bool) (fades : Fades) (system : Byte)
    {samples : List Sample} (h : samples.length ≤ 7) :
    execEnc f internal swap fades system samples s
      = .next ((s.writeOut (encodeFrame s.cfg samples fades system internal f swap)).respond .ok .out) := by
  rw [execEnc, if_neg (by omega), complete]

/-- Settles O37: the filler's id names no channel under either Format; a slot beyond the samples is the filler, whose bytes
are 0xFF whatever the byte order. -/
theorem fillerIsWrittenAndDiscarded : Obligations.FillerIsWrittenAndDiscarded := by
  unfold Obligations.FillerIsWrittenAndDiscarded
  refine ⟨⟨by decide, by decide, slotSample_fillSlot⟩, ?_⟩
  intro s f internal swap fades system samples hm hl
  refine ⟨_, execEnc_of_length_le s f internal swap fades system hl, fun i hi h7 => ?_⟩
  have hslot := read_writeBytes_slot s.out hm s.cfg samples fades system internal f swap i h7
  rwa [encodeSlot_of_length_le f hi, slotBytes_fillSlot] at hslot

end Sys2Proof.Machine
end

section
/-! The scaler operations against R70, R72, R73, R77 and R78: where each raises and what it answers. -/

namespace Sys2Proof.Machine

variable {s : State}

/-! ## The statuses of SCALE and DESCALE (R71, R75) -/

theorem scaleValue_of_invalidRange (raw : RawVal) (hi : invalidRange s) :
    scaleValue s raw = .error .invalidRange := by
  rw [scaleValue_eq, if_pos hi]

theorem scaleValue_of_not_fitsT {raw : RawVal} (hi : ¬ invalidRange s) (hf : ¬ fitsT (scaleSpec s raw)) :
    scaleValue s raw = .error .overflow := by
  rw [scaleValue_eq, if_neg hi, if_neg hf]

theorem descaleValue_of_invalidRange (value : TVal) (hi : invalidRange s) :
    descaleValue s value = .error .invalidRange := by
  rw [descaleValue_eq, if_pos hi]

theorem descaleValue_of_fitsRaw {value : TVal} (hi : ¬ invalidRange s) (hf : fitsRaw (descaleSpec s value)) :
    descaleValue s value = .ok (BitVec.ofInt 11 (descaleSpec s value)) := by
  rw [descaleValue_eq, if_neg hi, if_pos hf]

theorem descaleValue_of_not_fitsRaw {value : TVal} (hi : ¬ invalidRange s)
    (hf : ¬ fitsRaw (descaleSpec s value)) : descaleValue s value = .error .overflow := by
  rw [descaleValue_eq, if_neg hi, if_neg hf]

/-! ## How a meaning ends when its value is known -/

theorem execScale_of_error {raw : RawVal} {e : Status} (h : scaleValue s raw = .error e) :
    execScale raw s = .next (s.respond e .none) := by
  rw [execScale, h]
  rfl

theorem execDescale_of_error {value : TVal} {e : Status} (h : descaleValue s value = .error e) :
    execDescale value s = .next (s.respond e .none) := by
  rw [execDescale, h]
  rfl

/-- CHWR raises the status that DESCALE raises, and writes nothing then (R78). -/
theorem execChwr_of_error (ch : Channel) {value : TVal} {e : Status} (h : descaleValue s value = .error e) :
    execChwr ch value s = .next (s.respond e .none) := by
  rw [execChwr, h]
  rfl

/-- CHWR writes what DESCALE answers to its register (R78). -/
theorem execChwr_of_ok (ch : Channel) {value : TVal} {r : RawVal} (h : descaleValue s value = .ok r) :
    execChwr ch value s = .next ((s.writeRaw ch r).respond .ok .none) := by
  rw [execChwr, h]
  rfl

/-! ## SCALE and CHRD (R72, R77) -/

/-- Settles O18: the three cases of SCALE's value; a T encoding of a representable number reads back as that number. -/
theorem scaleFollowsItsFormula : Obligations.ScaleFollowsItsFormula := by
  unfold Obligations.ScaleFollowsItsFormula
  intro s raw
  refine ⟨fun hi => ?_, fun hi hf => ?_, fun hi hf => ?_⟩
  · exact execScale_of_error (scaleValue_of_invalidRange raw hi)
  · exact ⟨_, toInt_ofInt_of_fitsT _ hf, execScale_of_fitsT raw hi hf⟩
  · exact execScale_of_error (scaleValue_of_not_fitsT hi hf)

/-- CHRD ends as SCALE of the register's present contents (R77). -/
theorem exec_chrd_eq_scale (s : State) (ch : Channel) : exec (.chrd ch) s = exec (.scale s.raw[ch]) s :=
  execChrd_eq ch s

/-- Every register is 0 after reset (R160). -/
@[simp] theorem construct_raw_getElem (cfg : Config) (ch : Channel) : (State.construct cfg).raw[ch] = 0#11 := by
  simp [State.construct]

/-- SCALE of 0 is 0 while the scaler is inactive (R72). -/
theorem scaleSpec_zero_of_inactive (ha : s.active = false) : scaleSpec s 0#11 = 0 := by
  simp [scaleSpec, ha]

/-- An inactive scaler answers 0 for the raw value 0 whatever T's fraction is. -/
theorem execScale_zero_of_inactive (ha : s.active = false) :
    execScale 0#11 s = .next (s.respond .ok (.value 0#32)) := by
  have hz := scaleSpec_zero_of_inactive ha
  have h := execScale_of_fitsT 0#11 (not_invalidRange_of_inactive ha) (by rw [hz]; decide)
  rwa [hz] at h

/-- Settles O21: CHRD is SCALE of the register, so O18 says how it ends; reset leaves the registers 0 and the scaler
inactive. -/
theorem chrdScalesTheRegister : Obligations.ChrdScalesTheRegister := by
  unfold Obligations.ChrdScalesTheRegister
  constructor
  · intro s ch
    rw [exec_chrd_eq_scale]
    exact scaleFollowsItsFormula s s.raw[ch]
  · intro cfg ch
    rw [exec_chrd_eq_scale, construct_raw_getElem]
    exact execScale_zero_of_inactive rfl

/-! ## DESCALE and CHWR (R73, R78) -/

/-- Settles O20: the three cases of DESCALE's value; a number in 0..2047 is the register contents of itself. -/
theorem descaleFollowsItsFormula : Obligations.DescaleFollowsItsFormula := by
  unfold Obligations.DescaleFollowsItsFormula
  intro s value
  refine ⟨fun hi => ?_, fun hi hf => ?_, fun hi hf => ?_⟩
  · exact execDescale_of_error (descaleValue_of_invalidRange value hi)
  · exact ⟨_, toNat_ofInt_of_fitsRaw _ hf, execDescale_of_fitsRaw value hi hf⟩
  · exact execDescale_of_error (descaleValue_of_not_fitsRaw hi hf)

/-- DESCALE's formula is 0 while the output range is degenerate (R71, R73). -/
theorem descaleSpec_of_degenerate (value : TVal) (ha : s.active = true) (ho : s.outMin = s.outMax) :
    descaleSpec s value = 0 := by
  rw [descaleSpec, if_pos ⟨ha, ho⟩]

/-- DESCALE answers 0 while the input range is proper and the output range degenerate (R71, R73). -/
theorem descaleValue_of_degenerate (value : TVal) (ha : s.active = true) (hd : s.inMin ≠ s.inMax)
    (ho : s.outMin = s.outMax) : descaleValue s value = .ok 0#11 := by
  have hz := descaleSpec_of_degenerate value ha ho
  have h := descaleValue_of_fitsRaw (value := value) (fun hi => hd hi.2) (by rw [hz]; decide)
  rwa [hz] at h

/-- Settles O22: CHWR follows DESCALE's value in each of its cases; the degenerate output range is the case whose value
is 0. -/
theorem chwrDescalesIntoTheRegister : Obligations.ChwrDescalesIntoTheRegister := by
  unfold Obligations.ChwrDescalesIntoTheRegister
  intro s ch value
  refine ⟨fun hi => ?_, fun hi hf => ?_, fun hi hf => ?_, fun ha hd ho => ?_⟩
  · exact execChwr_of_error ch (descaleValue_of_invalidRange value hi)
  · exact ⟨_, toNat_ofInt_of_fitsRaw _ hf, execChwr_of_ok ch (descaleValue_of_fitsRaw hi hf)⟩
  · exact execChwr_of_error ch (descaleValue_of_not_fitsRaw hi hf)
  · exact execChwr_of_ok ch (descaleValue_of_degenerate value ha hd ho)

/-! ## SCFG (R70) -/

/-- SCFG stores its bounds, sets ACTIVE and ends with OK, whatever the bounds are (R70). -/
theorem exec_scfg (s : State) (a b : InVal) (c d : TVal) :
    exec (.scfg a b c d) s = .next ((s.withScaler a b c d).respond .ok .none) := rfl

/-- Storing the same bounds and answering OK again changes nothing. -/
theorem respond_withScaler_idem (s : State) (a b : InVal) (c d : TVal) :
    (((s.withScaler a b c d).respond .ok .none).withScaler a b c d).respond .ok .none
      = (s.withScaler a b c d).respond .ok .none := rfl

/-- Settles O17: SCFG's one outcome, whose fields are the stated ones, and which the same SCFG gives again. -/
theorem scfgStoresAndActivates : Obligations.ScfgStoresAndActivates := by
  unfold Obligations.ScfgStoresAndActivates
  intro s a b c d
  refine ⟨_, exec_scfg s a b c d, rfl, ?_⟩
  rw [exec_scfg, respond_withScaler_idem]

end Sys2Proof.Machine
end

section
/-! The codec operations (R90 to R96): how DEC ends for each length of IN, what an encode leaves in OUT, and that decoding
an encoded frame gives its operands back. -/

namespace Sys2Proof.Machine

/-! ## DEC (R90, R91) -/

/-- DEC of fewer than 16 bytes raises ShortBuffer (R90). -/
theorem execDec_of_length_lt (s : State) (f : Format) (internal swap : Bool) {bytes : List Byte}
    (h : bytes.length < 16) : execDec f internal swap bytes s = .next (s.respond .shortBuffer .none) := by
  rw [execDec, if_neg (by omega), if_pos h, raise]

/-- DEC of 16 bytes answers their decoding (R90). -/
theorem execDec_of_length_eq (s : State) (f : Format) (internal swap : Bool) {bytes : List Byte}
    (h : bytes.length = 16) :
    execDec f internal swap bytes s = .next (s.respond .ok (.decoded (decodeFrame s.cfg bytes f internal swap))) := by
  have hread : readBytes bytes 0 16 = bytes := by
    rw [readBytes, List.drop_zero, List.take_of_length_le h.le]
  rw [execDec, if_neg (by omega), if_neg (by omega), hread, complete]

/-- The fades count of a header as a number, under either layout (R51, R52). -/
theorem frameFades_toNat (internal : Bool) (frame : List Byte) :
    (frameFades internal frame).toNat = if internal then (frame.getD 0 0#8).toNat
      else 256 * (frame.getD 0 0#8).toNat + (frame.getD 1 0#8).toNat := by
  cases internal
  · exact frameFades_external frame
  · exact frameFades_internal frame

/-- Settles O28: DEC ends by the length of IN; of 16 bytes its answer is `decodeFrame`, whose header, kept pairs and count
are known. -/
theorem decDecodesAFrame : Obligations.DecDecodesAFrame := by
  unfold Obligations.DecDecodesAFrame
  intro s f internal swap bytes
  refine ⟨execDec_of_length_lt s f internal swap, fun hl => ?_⟩
  exact ⟨_, execDec_of_length_eq s f internal swap hl, frameFades_toNat internal bytes, rfl,
    decodeFrame_pairs s.cfg bytes f internal swap, decodeFrame_count s.cfg bytes f internal swap⟩

/-! ## The encodes (R92 to R95) -/

/-- An encode of any samples under any modes leaves its frame in OUT and ends with OK; no other field changes, and no offset
beyond the frame (R92, R94, R95). -/
theorem writeOut_encodeFrame_spec (s : State) (hm : Memory.wf s.out) (samples : List Sample) (fades : Fades)
    (system : Byte) (internal : Bool) (f : Format) (swap : Bool) :
    let t := (s.writeOut (encodeFrame s.cfg samples fades system internal f swap)).respond .ok .out
    t = { s with out := t.out, response := some ⟨.ok, .out⟩ }
    ∧ outHolds s.cfg t.out samples fades system internal f swap
    ∧ ∀ a, 16 ≤ a → Memory.read t.out a = Memory.read s.out a :=
  ⟨rfl, outHolds_writeBytes s.cfg s.out hm samples fades system internal f swap,
    fun a ha => read_writeBytes_beyond s.out hm _ a (by rwa [encodeFrame_length])⟩

/-- ENC of more than seven samples is refused (R62). -/
theorem execEnc_of_lt_length (s : State) (f : Format) (internal swap : Bool) (fades : Fades) (system : Byte)
    {samples : List Sample} (h : 7 < samples.length) :
    execEnc f internal swap fades system samples s = .refused (.illTyped .tooManySamples) := by
  rw [execEnc, if_pos h, refuse]

/-- Settles O30: ENC is one encode of its operands, or a refusal, by the number of samples. -/
theorem encWritesTheFrame : Obligations.EncWritesTheFrame := by
  unfold Obligations.EncWritesTheFrame
  intro s f internal swap fades system samples
  refine ⟨fun hl hm => ?_, execEnc_of_lt_length s f internal swap fades system⟩
  exact ⟨_, execEnc_of_length_le s f internal swap fades system hl,
    writeOut_encodeFrame_spec s hm samples fades system internal f swap⟩

/-- The primary batch is channel `i` at position `i`, for the seven channels from 0 (R94). -/
theorem batch_primaryChannels (s : State) : batch s primaryChannels =
    [⟨0, s.raw[0]⟩, ⟨1, s.raw[1]⟩, ⟨2, s.raw[2]⟩, ⟨3, s.raw[3]⟩, ⟨4, s.raw[4]⟩, ⟨5, s.raw[5]⟩, ⟨6, s.raw[6]⟩] := rfl

/-- The auxiliary batch is the five channels from 7, in order (R95). -/
theorem batch_auxiliaryChannels (s : State) : batch s auxiliaryChannels =
    [⟨7, s.raw[7]⟩, ⟨8, s.raw[8]⟩, ⟨9, s.raw[9]⟩, ⟨10, s.raw[10]⟩, ⟨11, s.raw[11]⟩] := rfl

/-- Settles O31: ENCP is one encode of the primary batch under the control fields. -/
theorem encpSendsThePrimaryChannels : Obligations.EncpSendsThePrimaryChannels := by
  unfold Obligations.EncpSendsThePrimaryChannels
  intro s fades hm
  rw [← batch_primaryChannels]
  exact ⟨_, rfl, writeOut_encodeFrame_spec s hm (batch s primaryChannels) fades s.system s.internal s.format s.swap⟩

/-- Settles O32: ENCA is one encode of the auxiliary batch under the control fields; `outHolds` gives fillers beyond its five
samples. -/
theorem encaSendsTheAuxiliaryChannels : Obligations.EncaSendsTheAuxiliaryChannels := by
  unfold Obligations.EncaSendsTheAuxiliaryChannels
  intro s fades hm
  rw [← batch_auxiliaryChannels]
  exact ⟨_, rfl, writeOut_encodeFrame_spec s hm (batch s auxiliaryChannels) fades s.system s.internal s.format s.swap⟩

/-! ## DEC of an encoded frame (R96) -/

/-- A low byte, zero-extended again, is its word masked. -/
theorem setWidth_loByte (w : SlotWord) : (loByte w).setWidth 16 = w &&& 0x00FF#16 := by
  apply BitVec.eq_of_toNat_eq
  have hlow : w.toNat % 256 = w.toNat &&& 255 := (Nat.and_two_pow_sub_one_eq_mod w.toNat 8).symm
  rw [BitVec.toNat_setWidth, loByte_toNat, BitVec.toNat_and, BitVec.toNat_ofNat, ← hlow]
  omega

section

variable (cfg : Config) (samples : List Sample) (fades : Fades) (system : Byte) (internal : Bool) (f : Format) (swap : Bool)

/-- An external header carries the whole fades count, an internal one its low byte (R93, R168). -/
theorem frameFades_encodeFrame : frameFades internal (encodeFrame cfg samples fades system internal f swap)
    = if internal then fades &&& 0x00FF#16 else fades := by
  cases internal
  · exact be16_hi_lo fades
  · exact setWidth_loByte fades

/-- An internal header carries the system byte, an external one none (R93). -/
theorem frameSystem_encodeFrame : frameSystem internal (encodeFrame cfg samples fades system internal f swap)
    = if internal then some system else none := by
  cases internal <;> rfl

/-- Decoding an encoded frame under the modes it was encoded with gives its operands back (R96). -/
theorem decodeFrame_encodeFrame (hl : samples.length ≤ 7) (hv : ∀ x ∈ samples, x.val.toNat ≤ (valMask f).toNat) :
    decodeFrame cfg (encodeFrame cfg samples fades system internal f swap) f internal swap =
      { fades := if internal then fades &&& 0x00FF#16 else fades
        system := if internal then some system else none
        samples := samples
        discarded := 7 - samples.length } := by
  have hkept := filterMap_encodeSlot samples f hl hv
  have hdropped : (slotIndices.map (encodeSlot samples f)).countP (fun slot => (slotSample f slot).isNone)
      = 7 - samples.length := by
    have hcount := length_filterMap_add_countP (slotSample f) (slotIndices.map (encodeSlot samples f))
    have hseven : (slotIndices.map (encodeSlot samples f)).length = 7 := rfl
    rw [hkept, hseven] at hcount
    omega
  simp only [decodeFrame, frameFades_encodeFrame, frameSystem_encodeFrame, frameSlots_encodeFrame, hkept, hdropped]

/-- The 16 bytes of OUT after an encode are its frame. -/
theorem readBytes_writeOut_encodeFrame (s : State) (hm : Memory.wf s.out) :
    Memory.readBytes (s.writeOut (encodeFrame cfg samples fades system internal f swap)).out 0 16
      = encodeFrame cfg samples fades system internal f swap := by
  have h := readBytes_writeBytes s.out hm (encodeFrame cfg samples fades system internal f swap)
  rwa [encodeFrame_length] at h

end

/-- Settles O33: OUT reads back as the frame that ENC wrote, DEC of those 16 bytes is its decoding, and that gives the
operands back. -/
theorem decodeOfEncodedFrame : Obligations.DecodeOfEncodedFrame := by
  unfold Obligations.DecodeOfEncodedFrame
  intro s f internal swap fades system samples hm hl hv
  refine ⟨_, execEnc_of_length_le s f internal swap fades system hl, ?_⟩
  rw [State.respond_out, readBytes_writeOut_encodeFrame s.cfg samples fades system internal f swap s hm,
    ← decodeFrame_encodeFrame s.cfg samples fades system internal f swap hl hv]
  exact execDec_of_length_eq _ f internal swap (encodeFrame_length ..)

end Sys2Proof.Machine
end

section
/-! POLL of one frame (R112 to R118): what its header announces, what adoption makes of SYSTEM and FORMAT, and what the
report says of both. -/

namespace Sys2Proof.Machine

/-! ## When a header is adopted (R115) -/

/-- Nothing is adopted in external mode (R114, R115). -/
theorem adoption_external (cfg : Config) (system : Byte) (x : Option Byte) : adoption cfg false system x = none := by
  cases x <;> rfl

/-- In internal mode another known system is adopted with its Format (R115). -/
theorem adoption_of_fmtOf (cfg : Config) {system sys : Byte} {f : Format} (hne : sys ≠ system)
    (hf : fmtOf cfg sys = some f) : adoption cfg true system (some sys) = some (sys, f) :=
  (adoption_eq_some_iff ..).mpr ⟨rfl, rfl, hne, hf⟩

/-- The present system and an unknown one are not adopted, in either mode (R115, R116). -/
theorem adoption_eq_none_of_same_or_unknown (cfg : Config) (internal : Bool) {system sys : Byte}
    (h : sys = system ∨ known cfg sys = false) : adoption cfg internal system (some sys) = none := by
  refine Option.eq_none_iff_forall_ne_some.mpr fun p hp => ?_
  obtain ⟨-, hx, hne, hf⟩ := (adoption_eq_some_iff ..).mp hp
  obtain rfl : sys = p.1 := Option.some.inj hx
  rcases h with hsame | hunknown
  · exact hne hsame
  · simp [known, hf] at hunknown

/-! ## What ingesting a frame makes of SYSTEM and FORMAT (R112, R115) -/

section

variable (frame : List Byte) (s : State)

/-- A header that announces a system to adopt sets SYSTEM and FORMAT to it, and the report says so (R115, R118). -/
theorem ingestFrame_of_adoption_some {system : Byte} {f : Format}
    (h : adoption s.cfg s.internal s.system (frameSystem s.internal frame) = some (system, f)) :
    (ingestFrame frame s).2.adopted = true ∧ (ingestFrame frame s).1.system = system
      ∧ (ingestFrame frame s).1.format = f := by
  refine ⟨congrArg Option.isSome h, ?_, ?_⟩
  all_goals rw [ingestFrame_eq, h]; rfl

/-- A header that announces nothing to adopt leaves SYSTEM and FORMAT, and the report says so (R115, R118). -/
theorem ingestFrame_of_adoption_none
    (h : adoption s.cfg s.internal s.system (frameSystem s.internal frame) = none) :
    (ingestFrame frame s).2.adopted = false ∧ (ingestFrame frame s).1.system = s.system
      ∧ (ingestFrame frame s).1.format = s.format := by
  refine ⟨congrArg Option.isSome h, ?_, ?_⟩
  all_goals rw [ingestFrame_eq, h]; rfl

/-- The fades count of the report is the header's (R118). -/
theorem ingestFrame_reported_fades : (ingestFrame frame s).2.fades = frameFades s.internal frame := rfl

/-- The system of the report is the header's (R118). -/
theorem ingestFrame_reported_system : (ingestFrame frame s).2.system = frameSystem s.internal frame := rfl

/-- The report is valid when the header is (R114, R118). -/
theorem ingestFrame_reported_valid :
    (ingestFrame frame s).2.valid = isValidSystem s.cfg s.internal (frameSystem s.internal frame) := rfl

/-- Under the external layout the report gives both header bytes as fades and no system, and is valid; SYSTEM and FORMAT
stay (R52, R114, R118). -/
theorem ingestFrame_external (hi : s.internal = false) :
    (ingestFrame frame s).2.fades.toNat = 256 * (frame.getD 0 0#8).toNat + (frame.getD 1 0#8).toNat
      ∧ (ingestFrame frame s).2.system = none ∧ (ingestFrame frame s).2.valid = true
      ∧ (ingestFrame frame s).2.adopted = false ∧ (ingestFrame frame s).1.system = s.system
      ∧ (ingestFrame frame s).1.format = s.format := by
  have hkeep := ingestFrame_of_adoption_none frame s (by rw [hi, adoption_external])
  rw [ingestFrame_reported_fades, ingestFrame_reported_system, ingestFrame_reported_valid, hi]
  exact ⟨frameFades_external frame, rfl, rfl, hkeep⟩

/-- Under the internal layout the report gives the first byte as fades and the second as the system, valid when that system
is known (R51, R114, R118). -/
theorem ingestFrame_internal_report (hi : s.internal = true) :
    (ingestFrame frame s).2.fades.toNat = (frame.getD 0 0#8).toNat
      ∧ (ingestFrame frame s).2.system = some (frame.getD 1 0#8)
      ∧ (ingestFrame frame s).2.valid = known s.cfg (frame.getD 1 0#8) := by
  rw [ingestFrame_reported_fades, ingestFrame_reported_system, ingestFrame_reported_valid, hi]
  exact ⟨frameFades_internal frame, rfl, rfl⟩

/-- In internal mode another known system is adopted with its Format (R115). -/
theorem ingestFrame_adopts (hi : s.internal = true) (hne : frame.getD 1 0#8 ≠ s.system)
    (hk : known s.cfg (frame.getD 1 0#8) = true) :
    (ingestFrame frame s).2.adopted = true ∧ (ingestFrame frame s).1.system = frame.getD 1 0#8
      ∧ fmtOf s.cfg (frame.getD 1 0#8) = some (ingestFrame frame s).1.format := by
  obtain ⟨f, hf⟩ := Option.isSome_iff_exists.mp hk
  obtain ⟨hadopted, hsystem, hformat⟩ :=
    ingestFrame_of_adoption_some frame s (by rw [hi]; exact adoption_of_fmtOf s.cfg hne hf)
  exact ⟨hadopted, hsystem, by rw [hformat, hf]⟩

/-- In internal mode the present system and an unknown one leave SYSTEM and FORMAT (R115, R116). -/
theorem ingestFrame_keeps_system (hi : s.internal = true)
    (h : frame.getD 1 0#8 = s.system ∨ known s.cfg (frame.getD 1 0#8) = false) :
    (ingestFrame frame s).2.adopted = false ∧ (ingestFrame frame s).1.system = s.system
      ∧ (ingestFrame frame s).1.format = s.format :=
  ingestFrame_of_adoption_none frame s (by rw [hi]; exact adoption_eq_none_of_same_or_unknown s.cfg true h)

/-- The stored and the discarded slots of a frame make seven (R91, R118). -/
theorem ingestFrame_count : (ingestFrame frame s).2.stored + (ingestFrame frame s).2.discarded = 7 :=
  decodeFrame_count s.cfg frame s.format s.internal s.swap

end

/-! ## POLL (R112) -/

/-- Settles O45: POLL of 16 bytes is one `ingestFrame`, whose registers, header and adoption are known in each mode. -/
theorem pollIngestsOneFrame : Obligations.PollIngestsOneFrame := by
  unfold Obligations.PollIngestsOneFrame
  intro s hl
  refine ⟨_, _, execPoll_one s hl, ?frame, ingestFrame_raw s.rx s, rfl, ingestFrame_stored s.rx s,
    ingestFrame_count s.rx s, ingestFrame_external s.rx s, fun hi => ?internal⟩
  case frame => rw [ingestFrame_eq]
  case internal =>
    obtain ⟨hfades, hsystem, hvalid⟩ := ingestFrame_internal_report s.rx s hi
    exact ⟨hfades, hsystem, hvalid, ingestFrame_adopts s.rx s hi, ingestFrame_keeps_system s.rx s hi⟩

end Sys2Proof.Machine
end

section
/-! The configuration operations (R130 to R133): how SETSYS ends for a known and for an unknown system, and that a row of
BIND_TABLE names a known one. -/

namespace Sys2Proof.Machine

/-! ## SETSYS (R130) -/

section

variable {s : State} {sys : Byte} (internal : Bool)

/-- A known system sets SYSTEM, FORMAT and INTERNAL and ends with OK. -/
theorem setSystem_of_fmtOf {f : Format} (hf : fmtOf s.cfg sys = some f) :
    setSystem sys internal s = .next (((s.withSystem sys f).withInternal internal).respond .ok .none) := by
  rw [setSystem, hf]
  rfl

/-- An unknown system raises UnknownSystem. -/
theorem setSystem_of_unknown (h : known s.cfg sys = false) :
    setSystem sys internal s = .next (s.respond (.unknownSystem sys) .none) := by
  have hnone : fmtOf s.cfg sys = none := by simpa [known] using h
  rw [setSystem, hnone]
  rfl

/-- Setting a known system writes SYSTEM, FORMAT and INTERNAL alone. The table it reads is a parameter of the instance, so
setting the same system again finds the same Format and changes nothing. -/
theorem setSystem_known_spec {f : Format} (hf : fmtOf s.cfg sys = some f) :
    ∃ t, setSystem sys internal s = .next t
      ∧ t = { s with system := sys, format := f, internal := internal, response := some ⟨.ok, .none⟩ }
      ∧ setSystem sys internal t = .next t := by
  refine ⟨_, setSystem_of_fmtOf internal hf, rfl, ?again⟩
  case again =>
    have hkept : fmtOf (((s.withSystem sys f).withInternal internal).respond .ok .none).cfg sys = some f := hf
    rw [setSystem_of_fmtOf internal hkept]
    rfl

end

/-- SETSYS sets its system operand. -/
theorem exec_setsys (sys : Byte) (internal : Bool) (s : State) :
    exec (.setsys sys internal) s = setSystem sys internal s := rfl

/-- Settles O52: SETSYS sets its operand, by whether SYSTEM_TABLE has a row for it. -/
theorem setsysSetsAKnownSystem : Obligations.SetsysSetsAKnownSystem := by
  unfold Obligations.SetsysSetsAKnownSystem
  intro s sys internal
  simp only [exec_setsys]
  exact ⟨fun f hf => setSystem_known_spec internal hf, setSystem_of_unknown internal⟩

/-! ## SETMODE (R64, R132, R133) -/

/-- SETMODE sets the system of its row of the state's own BIND_TABLE. -/
theorem exec_setmode (m : Fin 8) (s : State) :
    exec (.setmode m) s = setSystem s.cfg.bindTable[m].system s.cfg.bindTable[m].internal s := rfl

/-- Every row of an instance's BIND_TABLE names a known system (R133). -/
theorem known_bindTable_system {cfg : Config} (h : cfg.wf = true) (m : Fin 8) :
    known cfg cfg.bindTable[m].system = true := by
  simp only [Config.wf, Bool.and_eq_true, List.all_eq_true] at h
  obtain ⟨⟨-, hrows⟩, -⟩ := h
  obtain ⟨⟨hknown, -⟩, -⟩ := hrows cfg.bindTable[m] (Vector.mem_toList_iff.mpr (Vector.getElem_mem m.isLt))
  exact hknown

/-- Settles O54: SETMODE sets the system its row names, which an instance knows; the state it leaves has the same
BIND_TABLE, so SETMODE again is the same setting again. -/
theorem setmodeIsItsSetsys : Obligations.SetmodeIsItsSetsys := by
  unfold Obligations.SetmodeIsItsSetsys
  intro s m
  refine ⟨by rw [exec_setmode, exec_setsys], fun hwf => ?_⟩
  obtain ⟨f, hf⟩ := Option.isSome_iff_exists.mp (known_bindTable_system hwf m)
  obtain ⟨t, hrun, rfl, hagain⟩ := setSystem_known_spec s.cfg.bindTable[m].internal hf
  exact ⟨_, f, hrun, hf, rfl, hagain⟩

/-! ## SETOPT (R131) -/

/-- SETOPT sets both options and ends with OK, whatever the state. -/
theorem exec_setopt (swap procall : Bool) (s : State) :
    exec (.setopt swap procall) s = .next ((s.withOptions swap procall).respond .ok .none) := rfl

/-- Setting the same options and answering OK again changes nothing. -/
theorem respond_withOptions_idem (s : State) (swap procall : Bool) :
    (((s.withOptions swap procall).respond .ok .none).withOptions swap procall).respond .ok .none
      = (s.withOptions swap procall).respond .ok .none := rfl

/-- Settles O53: SETOPT's one outcome, whose fields are the stated ones, and which the same SETOPT gives again. -/
theorem setoptSetsSwapAndProcall : Obligations.SetoptSetsSwapAndProcall := by
  unfold Obligations.SetoptSetsSwapAndProcall
  intro s swap procall
  refine ⟨_, exec_setopt swap procall s, rfl, ?_⟩
  rw [exec_setopt, respond_withOptions_idem]

end Sys2Proof.Machine
end

section
/-! The statuses (R140 to R147): an operation raises a status exactly where R140 gives it a cause, and writes nothing then. -/

namespace Sys2Proof.Machine

variable {i : Instr} {s t : State} {status : Status}

/-- R140's table: the operations that raise a status, with the cause. Nothing raises OK. -/
def Cause (i : Instr) (s : State) : Status → Prop
  | .ok => False
  | .shortBuffer => ∃ f internal swap bytes, i = .dec f internal swap bytes ∧ bytes.length < 16
  | .shortRead => i = .poll ∧ s.rx.length < 16
  | .invalidRange => scalerRow i = true ∧ invalidRange s
  | .unknownSystem sys => known s.cfg sys = false
      ∧ ((∃ internal, i = .setsys sys internal) ∨ ∃ m : Fin 8, i = .setmode m ∧ s.cfg.bindTable[m].system = sys)
  | .overflow => ¬ invalidRange s ∧
      ((∃ raw, i = .scale raw ∧ ¬ fitsT (scaleSpec s raw)) ∨ (∃ ch, i = .chrd ch ∧ ¬ fitsT (scaleSpec s s.raw[ch]))
      ∨ (∃ v, i = .descale v ∧ ¬ fitsRaw (descaleSpec s v)) ∨ (∃ ch v, i = .chwr ch v ∧ ¬ fitsRaw (descaleSpec s v)))
  | .illegalCommand => reservedRow i = true

/-! ## A cause raises its status -/

/-- Every scaler operation raises InvalidRange while the input range is collapsed (R71, R143). -/
theorem exec_of_invalidRange (hrow : scalerRow i = true) (hi : invalidRange s) :
    exec i s = .next (s.respond .invalidRange .none) := by
  cases i with
  | scale raw => exact execScale_of_error (scaleValue_of_invalidRange raw hi)
  | chrd ch => exact execScale_of_error (scaleValue_of_invalidRange s.raw[ch] hi)
  | descale value => exact execDescale_of_error (descaleValue_of_invalidRange value hi)
  | chwr ch value => exact execChwr_of_error ch (descaleValue_of_invalidRange value hi)
  | _ => cases hrow

/-- Every reserved code raises IllegalCommand (R62, R147). -/
theorem exec_of_reservedRow (hrow : reservedRow i = true) (s : State) :
    exec i s = .next (s.respond .illegalCommand .none) := by
  cases i with
  | reserved0 | reservedD | reservedE | reservedF => rfl
  | _ => cases hrow

/-- An operation with a cause to raise a status ends with it, writing nothing else (R5, R140). -/
theorem exec_of_cause (h : Cause i s status) : exec i s = .next (s.respond status .none) := by
  cases status with
  | ok => exact h.elim
  | shortBuffer =>
      obtain ⟨f, internal, swap, bytes, rfl, hl⟩ := h
      exact execDec_of_length_lt s f internal swap hl
  | shortRead =>
      obtain ⟨rfl, hl⟩ := h
      exact execPoll_short s hl
  | invalidRange =>
      obtain ⟨hrow, hi⟩ := h
      exact exec_of_invalidRange hrow hi
  | unknownSystem sys =>
      obtain ⟨hk, ⟨internal, rfl⟩ | ⟨m, rfl, rfl⟩⟩ := h
      · exact setSystem_of_unknown internal hk
      · exact setSystem_of_unknown _ hk
  | overflow =>
      obtain ⟨hi, ⟨raw, rfl, hf⟩ | ⟨ch, rfl, hf⟩ | ⟨v, rfl, hf⟩ | ⟨ch, v, rfl, hf⟩⟩ := h
      · exact execScale_of_error (scaleValue_of_not_fitsT hi hf)
      · exact execScale_of_error (scaleValue_of_not_fitsT hi hf)
      · exact execDescale_of_error (descaleValue_of_not_fitsRaw hi hf)
      · exact execChwr_of_error ch (descaleValue_of_not_fitsRaw hi hf)
  | illegalCommand => exact exec_of_reservedRow h s

/-! ## A status has its cause -/

/-- The operation ended with OK, or with a status it had cause to raise, writing nothing else (R5). -/
def EndsWithCause (i : Instr) (s t : State) : Prop :=
  (∃ result, t.response = some ⟨.ok, result⟩) ∨ ∃ status, Cause i s status ∧ t = s.respond status .none

/-- The three ways a scaler operation ends (R71, R75), when `fits` is that its result is representable. -/
theorem endsWithCause_of_scaler {u : State} {result : Result} {fits : Prop} (hrow : scalerRow i = true)
    (hcause : ¬ invalidRange s → ¬ fits → Cause i s .overflow)
    (h : (invalidRange s ∧ t = s.respond .invalidRange .none)
      ∨ (¬ invalidRange s ∧ fits ∧ t = u.respond .ok result)
      ∨ (¬ invalidRange s ∧ ¬ fits ∧ t = s.respond .overflow .none)) : EndsWithCause i s t := by
  rcases h with ⟨hi, ht⟩ | ⟨-, -, rfl⟩ | ⟨hi, hf, ht⟩
  · exact .inr ⟨.invalidRange, ⟨hrow, hi⟩, ht⟩
  · exact .inl ⟨result, rfl⟩
  · exact .inr ⟨.overflow, hcause hi hf, ht⟩

/-- The two ways SETSYS and SETMODE end (R130, R132). -/
theorem endsWithCause_of_setSystem {sys : Byte} {internal : Bool}
    (hcause : known s.cfg sys = false → Cause i s (.unknownSystem sys)) (h : setSystem sys internal s = .next t) :
    EndsWithCause i s t := by
  rcases setSystem_next sys internal h with ⟨hnone, ht⟩ | ⟨f, -, rfl⟩
  · exact .inr ⟨.unknownSystem sys, hcause (by rw [known, hnone]; rfl), ht⟩
  · exact .inl ⟨_, rfl⟩

/-- Every operation of the host ends with OK or with a status it had cause to raise (R140). -/
theorem exec_endsWithCause (ho : operation i = true) (h : exec i s = .next t) : EndsWithCause i s t := by
  cases i with
  | scale raw => exact endsWithCause_of_scaler rfl (fun hi hf => ⟨hi, .inl ⟨raw, rfl, hf⟩⟩) (execScale_next raw h)
  | chrd ch =>
      exact endsWithCause_of_scaler rfl (fun hi hf => ⟨hi, .inr (.inl ⟨ch, rfl, hf⟩)⟩) (execScale_next s.raw[ch] h)
  | descale value =>
      exact endsWithCause_of_scaler rfl (fun hi hf => ⟨hi, .inr (.inr (.inl ⟨value, rfl, hf⟩))⟩)
        (execDescale_next value h)
  | chwr ch value =>
      exact endsWithCause_of_scaler rfl (fun hi hf => ⟨hi, .inr (.inr (.inr ⟨ch, value, rfl, hf⟩))⟩)
        (execChwr_next ch value h)
  | dec f internal swap bytes =>
      rcases execDec_next f internal swap bytes h with ⟨hl, ht⟩ | ⟨-, rfl⟩
      · exact .inr ⟨.shortBuffer, ⟨f, internal, swap, bytes, rfl, hl⟩, ht⟩
      · exact .inl ⟨_, rfl⟩
  | poll =>
      rcases execPoll_next h with ⟨hl, ht⟩ | ⟨-, rfl⟩
      · exact .inr ⟨.shortRead, ⟨rfl, hl⟩, ht⟩
      · exact .inl ⟨_, rfl⟩
  | setsys sys internal => exact endsWithCause_of_setSystem (fun hk => ⟨hk, .inl ⟨internal, rfl⟩⟩) h
  | setmode m => exact endsWithCause_of_setSystem (fun hk => ⟨hk, .inr ⟨m, rfl, rfl⟩⟩) h
  | reserved0 | reservedD | reservedE | reservedF => exact .inr ⟨.illegalCommand, rfl, raise_next _ h⟩
  | enc f internal swap fades system samples =>
      obtain ⟨-, rfl⟩ := execEnc_next f internal swap fades system samples h
      exact .inl ⟨_, rfl⟩
  | encp fades => exact .inl ⟨_, congrArg State.response (encodeBatch_next primaryChannels fades h)⟩
  | enca fades => exact .inl ⟨_, congrArg State.response (encodeBatch_next auxiliaryChannels fades h)⟩
  | scfg | setopt => exact .inl ⟨_, congrArg State.response (complete_next _ h)⟩
  | hdrInt | hdrExt | slotC | slotX | slotFill => cases ho

/-- An operation that ends with a status other than OK had cause to raise it, and gives no result (R5, R140). -/
theorem cause_of_response {result : Result} (ho : operation i = true) (h : exec i s = .next t)
    (hr : t.response = some ⟨status, result⟩) (hne : status ≠ .ok) : Cause i s status ∧ result = .none := by
  rcases exec_endsWithCause ho h with ⟨result1, hok⟩ | ⟨status1, hc, rfl⟩
  · rw [hok] at hr
    cases hr
    exact absurd rfl hne
  · cases hr
    exact ⟨hc, rfl⟩

/-- An operation that answers `status` had cause to raise `e` exactly when `status` is `e` (R140). -/
theorem status_eq_iff_cause {result : Result} (ho : operation i = true) (h : exec i s = .next t)
    (hr : t.response = some ⟨status, result⟩) (e : Status) (hne : e ≠ .ok) : status = e ↔ Cause i s e := by
  constructor
  · rintro rfl
    exact (cause_of_response ho h hr hne).1
  · intro hc
    rw [exec_of_cause hc] at h
    cases h
    cases hr
    rfl

/-! ## R140 -/

/-- Settles O9: each status is answered exactly where R140's table has a cause for it, and comes without a result. -/
theorem statusesHaveTheirCauses : Obligations.StatusesHaveTheirCauses := by
  unfold Obligations.StatusesHaveTheirCauses
  refine ⟨⟨rfl, rfl, rfl, rfl, fun _ => rfl, rfl, rfl⟩, fun i s t status result ho h hr => ?_⟩
  have hiff := status_eq_iff_cause ho h hr
  exact ⟨hiff .shortBuffer nofun, hiff .shortRead nofun, hiff .invalidRange nofun,
    fun sys => hiff (.unknownSystem sys) nofun, hiff .overflow nofun, hiff .illegalCommand nofun,
    fun hne => (cause_of_response ho h hr hne).2⟩

/-! ## ShortBuffer (R141) -/

/-- Settles O29: a short DEC raises ShortBuffer, and R140's table has no other cause for it. -/
theorem shortBufferIsDecsAlone : Obligations.ShortBufferIsDecsAlone := by
  unfold Obligations.ShortBufferIsDecsAlone
  refine ⟨fun s f internal swap bytes hl => execDec_of_length_lt s f internal swap hl, fun i s t result ho h hr => ?_⟩
  exact (cause_of_response ho h hr nofun).1

/-! ## InvalidRange (R143) -/

/-- A wire word leaves the response port as it is (log 12). -/
theorem exec_response_of_wire (ho : operation i = false) (h : exec i s = .next t) : t.response = s.response := by
  cases i with
  | hdrInt | hdrExt | slotC | slotX | slotFill => cases h; rfl
  | _ => cases ho

/-- After an SCFG with distinct input bounds InvalidRange has no cause, and a wire word leaves SCFG's OK on the port. -/
theorem response_ne_invalidRange_of_scfg {a b : InVal} {c d : TVal} {result : Result} (hab : a ≠ b)
    (h : exec i ((s.withScaler a b c d).respond .ok .none) = .next t) :
    t.response ≠ some ⟨.invalidRange, result⟩ := by
  intro hr
  cases ho : operation i with
  | false =>
      rw [exec_response_of_wire ho h] at hr
      cases hr
  | true =>
      obtain ⟨⟨-, -, heq⟩, -⟩ := cause_of_response ho h hr nofun
      exact hab heq

/-- Settles O24: a collapsed input range raises InvalidRange in every scaler operation and is its only cause, which an SCFG
with distinct bounds removes. -/
theorem invalidRangeLastsUntilReconfigured : Obligations.InvalidRangeLastsUntilReconfigured := by
  unfold Obligations.InvalidRangeLastsUntilReconfigured
  refine ⟨fun i s hrow ha hd => exec_of_invalidRange hrow ⟨ha, hd⟩, fun s a b c d => ?scfg,
    fun i s t result ho hrow h hr => ?others⟩
  case scfg =>
    exact ⟨_, exec_scfg s a b c d, rfl, fun hab i t1 result h => response_ne_invalidRange_of_scfg hab h⟩
  case others =>
    obtain ⟨⟨hscaler, -⟩, -⟩ := cause_of_response ho h hr nofun
    rw [hrow] at hscaler
    cases hscaler

/-! ## IllegalCommand (R147) -/

/-- A reserved code decodes to its reserved row, whatever the operand ports hold (R62). -/
theorem decode_reservedCode {code : Byte} (ports : List Byte)
    (hcode : code = 0x0#8 ∨ code = 0xD#8 ∨ code = 0xE#8 ∨ code = 0xF#8) :
    ∃ i, decode (.command (code :: ports)) = .ok i ∧ reservedRow i = true := by
  rcases hcode with rfl | rfl | rfl | rfl <;> exact ⟨_, rfl, rfl⟩

/-- A step with a decodable image as its oldest input takes it and runs its instruction (R6). -/
theorem step_of_decode {e : Encoded} {rest : List Input} (hin : s.inputs = .present e :: rest)
    (hdec : decode e = .ok i) : step s = exec i (s.withInputs rest) := by
  simp only [step, hin, runInput, runEncoded, hdec]

/-- Settles O11: a reserved code decodes to a reserved row, which a step runs and which raises IllegalCommand. -/
theorem reservedCodesRaiseIllegalCommand : Obligations.ReservedCodesRaiseIllegalCommand := by
  unfold Obligations.ReservedCodesRaiseIllegalCommand
  refine ⟨fun s code ports rest hcode hin => ?_, fun i s hrow => exec_of_reservedRow hrow s⟩
  obtain ⟨i, hdec, hrow⟩ := decode_reservedCode ports hcode
  rw [step_of_decode hin hdec]
  exact exec_of_reservedRow hrow _

/-! ## ShortRead (R142) -/

/-- POLL does not read the response port (R5). -/
theorem execPoll_response_irrelevant (s : State) (r : Option Response) :
    execPoll { s with response := r } = execPoll s := by
  by_cases hl : s.rx.length < 16
  · rw [execPoll_short s hl]
    exact execPoll_short { s with response := r } hl
  · have hge : 16 ≤ s.rx.length := by omega
    have hrx : ∀ offsets, (ingestFrames s.rx offsets s).1.rx = s.rx := fun offsets => by rw [ingestFrames_eq]
    rw [execPoll_eq s hge, execPoll_eq { s with response := r } hge, ingestFrames_ports s.rx _ s s.rx r]
    simp only [State.consume, State.respond, hrx]

/-- Settles O41: a short POLL writes the response port alone, which the next POLL does not read. -/
theorem pollShortRead : Obligations.PollShortRead := by
  unfold Obligations.PollShortRead
  intro s hl
  exact ⟨_, execPoll_short s hl, rfl,
    fun bytes => execPoll_response_irrelevant { s with rx := s.rx ++ bytes } _⟩

end Sys2Proof.Machine
end

section
/-! The decoder and the encoder: that they agree on every instruction, that a wire word is its fields, and that only
expressible instructions are decoded. -/

namespace Sys2Proof

/-! ## Decode of encode -/

/-- The round trip of every row, one lemma of `Laws.RoundTrip` each. -/
theorem roundTrip (i : Instr) : Laws.RoundTrip.Statement i := by
  cases i with
  | scfg a b c d => exact Laws.RoundTrip.scfg a b c d
  | scale raw => exact Laws.RoundTrip.scale raw
  | descale value => exact Laws.RoundTrip.descale value
  | dec f internal swap bytes => exact Laws.RoundTrip.dec f internal swap bytes
  | enc f internal swap fades system samples => exact Laws.RoundTrip.enc f internal swap fades system samples
  | encp fades => exact Laws.RoundTrip.encp fades
  | enca fades => exact Laws.RoundTrip.enca fades
  | poll => exact Laws.RoundTrip.poll
  | chrd ch => exact Laws.RoundTrip.chrd ch
  | chwr ch value => exact Laws.RoundTrip.chwr ch value
  | setsys sys internal => exact Laws.RoundTrip.setsys sys internal
  | setopt swap procall => exact Laws.RoundTrip.setopt swap procall
  | setmode m => exact Laws.RoundTrip.setmode m
  | reserved0 => exact Laws.RoundTrip.reserved0
  | reservedD => exact Laws.RoundTrip.reservedD
  | reservedE => exact Laws.RoundTrip.reservedE
  | reservedF => exact Laws.RoundTrip.reservedF
  | hdrInt fades system => exact Laws.RoundTrip.hdrInt fades system
  | hdrExt fades => exact Laws.RoundTrip.hdrExt fades
  | slotC c v => exact Laws.RoundTrip.slotC c v
  | slotX x c v => exact Laws.RoundTrip.slotX x c v
  | slotFill => exact Laws.RoundTrip.slotFill

/-- Settles O3, by the round trip of each row. -/
theorem decodeOfEncode : Obligations.DecodeOfEncode := by
  unfold Obligations.DecodeOfEncode
  exact fun cfg i hw => roundTrip i cfg hw

/-- Settles O2: each word is evaluated. -/
theorem specWordsDecode : Obligations.SpecWordsDecode := by
  unfold Obligations.SpecWordsDecode
  decide

/-! ## The fields of a wire word make the word (R53, R54) -/

/-- The two fields of SLOT.C are all of the word. -/
@[simp] theorem slotCWord_fields (w : SlotWord) : slotCWord (w.extractLsb' 10 6) (w.extractLsb' 0 10) = w := by
  apply BitVec.eq_of_toNat_eq
  have hlt := w.isLt
  rw [slotCWord_toNat]
  simp only [BitVec.extractLsb'_toNat, Nat.shiftRight_eq_div_pow]
  omega

/-- Bit 15 and the two fields of SLOT.X are all of the word. -/
@[simp] theorem slotXWord_fields (w : SlotWord) :
    slotXWord (w.extractLsb' 15 1) (w.extractLsb' 11 4) (w.extractLsb' 0 11) = w := by
  apply BitVec.eq_of_toNat_eq
  have hlt := w.isLt
  rw [slotXWord_toNat]
  simp only [BitVec.extractLsb'_toNat, Nat.shiftRight_eq_div_pow]
  omega

/-! ## Decoded instructions are expressible (R62) -/

/-- Every word of SLOT.C decodes to an expressible instruction: only the filler has every bit set (R59). -/
theorem decodeSlotC_wf (w : SlotWord) : (decodeSlotC w).wf = true := by
  rw [decodeSlotC]
  split
  · rfl
  next hne =>
    have hfields : ¬ (w.extractLsb' 10 6 = 63#6 ∧ w.extractLsb' 0 10 = 1023#10) := by
      rintro ⟨hc, hv⟩
      have hw := slotCWord_fields w
      rw [hc, hv] at hw
      exact hne hw.symm
    simpa [Instr.wf, -not_and, not_and_or, or_assoc] using hfields

/-- Every word of SLOT.X decodes to an expressible instruction: only the filler has every bit set (R59). -/
theorem decodeSlotX_wf (w : SlotWord) : (decodeSlotX w).wf = true := by
  rw [decodeSlotX]
  split
  · rfl
  next hne =>
    have hfields : ¬ (w.extractLsb' 15 1 = 1#1 ∧ w.extractLsb' 11 4 = 15#4 ∧ w.extractLsb' 0 11 = 2047#11) := by
      rintro ⟨hx, hc, hv⟩
      have hw := slotXWord_fields w
      rw [hx, hc, hv] at hw
      exact hne hw.symm
    simpa [Instr.wf, -not_and, not_and_or, or_assoc] using hfields

theorem decodeWire_wf (kind : WireKind) (w : SlotWord) : (decodeWire kind w).wf = true := by
  cases kind with
  | hdrInt | hdrExt => rfl
  | slotC => exact decodeSlotC_wf w
  | slotX => exact decodeSlotX_wf w

/-- An outcome of a decoder is no instruction, or an expressible one. -/
def GivesWf (outcome : Except DecodeError (Instr × List Byte)) : Prop :=
  ∀ p, outcome = .ok p → p.1.wf = true

theorem givesWf_error (reason : DecodeError) : GivesWf (.error reason) := nofun

theorem givesWf_ok {i : Instr} (rest : List Byte) (hw : i.wf = true) : GivesWf (.ok (i, rest)) := by
  rintro _ ⟨⟩
  exact hw

/-- A decoder that first reads an operand and ends well read it, and ends as it does for the operand read. -/
theorem exists_of_bind_eq_ok {α β : Type} {operand : Except DecodeError α} {k : α → Except DecodeError β} {b : β}
    (h : operand >>= k = .ok b) : ∃ a, operand = .ok a ∧ k a = .ok b := by
  cases operand with
  | error reason => cases h
  | ok a => exact ⟨a, rfl, h⟩

/-- A decoder that first reads an operand gives what it gives for the operand read. -/
theorem givesWf_bind {α : Type} {operand : Except DecodeError α} {k : α → Except DecodeError (Instr × List Byte)}
    (hk : ∀ a, operand = .ok a → GivesWf (k a)) : GivesWf (operand >>= k) := by
  intro p hp
  obtain ⟨a, ha, h⟩ := exists_of_bind_eq_ok hp
  exact hk a ha p h

/-- As many samples are decoded as are asked for. -/
theorem decodeSamples_length {n : Nat} {bytes : List Byte} {p : List Sample × List Byte}
    (h : decodeSamples n bytes = .ok p) : p.1.length = n := by
  induction n, bytes using decodeSamples.induct generalizing p with
  | case1 rest => cases h; rfl
  | case2 n c v0 v1 rest ih =>
      rw [decodeSamples] at h
      obtain ⟨id, -, h⟩ := exists_of_bind_eq_ok h
      obtain ⟨val, -, h⟩ := exists_of_bind_eq_ok h
      obtain ⟨q, hq, h⟩ := exists_of_bind_eq_ok h
      cases h
      rw [List.length_cons, ih hq]
  | case3 n bytes hshort =>
      rw [decodeSamples] at h
      · cases h
      · exact hshort

theorem decodeDec_givesWf (ports : List Byte) : GivesWf (decodeDec ports) := by
  unfold decodeDec
  split
  next f i w len rest =>
    refine givesWf_bind fun fmt _ => givesWf_bind fun internal _ => givesWf_bind fun swap _ => ?_
    split
    · exact givesWf_error _
    next hlen =>
      split
      · exact givesWf_error _
      · exact givesWf_ok _ (by simp [Instr.wf]; omega)
  · exact givesWf_error _

theorem decodeEnc_givesWf (ports : List Byte) : GivesWf (decodeEnc ports) := by
  unfold decodeEnc
  split
  next f i w f0 f1 sys count rest =>
    refine givesWf_bind fun fmt _ => givesWf_bind fun internal _ => givesWf_bind fun swap _ => ?_
    split
    · exact givesWf_error _
    next hcount =>
      refine givesWf_bind fun p hp => givesWf_ok _ ?_
      have hlength := decodeSamples_length hp
      simp [Instr.wf]
      omega
  · exact givesWf_error _

/-- Every command image decodes to an expressible instruction or is rejected. -/
theorem decodeCommand_givesWf (image : List Byte) : GivesWf (decodeCommand image) := by
  unfold decodeCommand
  split
  · exact givesWf_error _
  next code ports =>
    split
    -- DEC and ENC bound a length
    case h_5 => exact decodeDec_givesWf ports
    case h_6 => exact decodeEnc_givesWf ports
    -- SCALE, CHRD, CHWR and SETSYS read one operand that has a range, SETOPT two
    case h_3 | h_10 | h_11 | h_12 =>
      simp only [decodeScale, decodeChrd, decodeChwr, decodeSetsys]
      split
      · exact givesWf_bind fun _ _ => givesWf_ok _ rfl
      · exact givesWf_error _
    case h_13 =>
      unfold decodeSetopt
      split
      · exact givesWf_bind fun _ _ => givesWf_bind fun _ _ => givesWf_ok _ rfl
      · exact givesWf_error _
    -- SCFG, DESCALE, ENCP and ENCA take any operands
    case h_2 | h_4 | h_7 | h_8 =>
      simp only [decodeScfg, decodeDescale, decodeEncp, decodeEnca]
      split
      · exact givesWf_ok _ rfl
      · exact givesWf_error _
    -- POLL and the reserved codes have none
    case h_1 | h_9 | h_14 | h_15 | h_16 => exact givesWf_ok _ rfl
    · exact givesWf_error _

/-- Settles O4: a command image decodes only to an expressible instruction, and so does every wire word. -/
theorem decodedInstructionsAreExpressible : Obligations.DecodedInstructionsAreExpressible := by
  unfold Obligations.DecodedInstructionsAreExpressible
  intro e i h
  cases e with
  | command ports =>
      obtain ⟨p, hp, h⟩ := exists_of_bind_eq_ok h
      cases h
      exact decodeCommand_givesWf ports p hp
  | wire kind b0 b1 =>
      cases h
      exact decodeWire_wf kind _

end Sys2Proof
end

section
/-! What each instruction may write (R10, R14 to R22, R32 to R34), stated once for all rows, and an invariant of POLL's
loop. -/

namespace Sys2Proof.Machine

variable {i : Instr} {s t : State}

/-! ## The fields a row may write -/

/-- `s` with the fields of `t` that the row of `i` may write. -/
def withWritten (i : Instr) (s t : State) : State :=
  match i with
  | .scfg _ _ _ _ => { s with inMin := t.inMin, inMax := t.inMax, outMin := t.outMin, outMax := t.outMax,
                              active := t.active, response := t.response }
  | .scale _ | .descale _ | .chrd _ | .dec _ _ _ _ => { s with response := t.response }
  | .enc _ _ _ _ _ _ | .encp _ | .enca _ => { s with out := t.out, response := t.response }
  | .poll => { s with raw := t.raw, system := t.system, format := t.format, rx := t.rx, response := t.response }
  | .chwr _ _ => { s with raw := t.raw, response := t.response }
  | .setsys _ _ | .setmode _ =>
      { s with system := t.system, format := t.format, internal := t.internal, response := t.response }
  | .setopt _ _ => { s with swap := t.swap, procall := t.procall, response := t.response }
  | .reserved0 | .reservedD | .reservedE | .reservedF => { s with response := t.response }
  | .hdrInt _ _ | .hdrExt _ | .slotC _ _ | .slotX _ _ _ | .slotFill => { s with rx := t.rx }

/-- Every instruction writes the fields of its row alone. -/
theorem exec_eq_withWritten (h : exec i s = .next t) : t = withWritten i s t := by
  cases i with
  | scale raw => exact execScale_frame raw h
  | chrd ch => exact execScale_frame s.raw[ch] h
  | descale value => exact execDescale_frame value h
  | chwr ch value => exact execChwr_frame ch value h
  | dec f internal swap bytes => exact execDec_frame f internal swap bytes h
  | enc f internal swap fades system samples => exact execEnc_frame f internal swap fades system samples h
  | encp fades => exact encodeBatch_frame primaryChannels fades h
  | enca fades => exact encodeBatch_frame auxiliaryChannels fades h
  | poll => exact execPoll_frame h
  | setsys sys internal => exact setSystem_frame sys internal h
  | setmode m => exact setSystem_frame _ _ h
  | scfg | setopt | reserved0 | reservedD | reservedE | reservedF | hdrInt | hdrExt | slotC | slotX | slotFill =>
      cases h; rfl

/-- RND, the instance and the inputs are written by no instruction (R22, log 6, log 2). -/
theorem exec_keeps_constants (h : exec i s = .next t) : t.rnd = s.rnd ∧ t.cfg = s.cfg ∧ t.inputs = s.inputs := by
  rw [exec_eq_withWritten h]
  cases i <;> exact ⟨rfl, rfl, rfl⟩

/-- INTERNAL is written by SETSYS and SETMODE alone (R16). -/
theorem exec_internal (h : exec i s = .next t) (hne : t.internal ≠ s.internal) :
    (∃ sys internal, i = .setsys sys internal) ∨ ∃ m, i = .setmode m := by
  rw [exec_eq_withWritten h] at hne
  cases i with
  | setsys sys internal => exact .inl ⟨sys, internal, rfl⟩
  | setmode m => exact .inr ⟨m, rfl⟩
  | _ => exact absurd rfl hne

/-- SWAP and PROCALL are written by SETOPT alone (R17, R18). -/
theorem exec_options (h : exec i s = .next t) (hne : t.swap ≠ s.swap ∨ t.procall ≠ s.procall) :
    ∃ swap procall, i = .setopt swap procall := by
  rw [exec_eq_withWritten h] at hne
  cases i with
  | setopt swap procall => exact ⟨swap, procall, rfl⟩
  | _ => exact hne.elim (absurd rfl) (absurd rfl)

/-- The scaler's bounds and ACTIVE are written by SCFG alone (R19 to R21). -/
theorem exec_scaler (h : exec i s = .next t) (hne : t.inMin ≠ s.inMin ∨ t.inMax ≠ s.inMax ∨ t.outMin ≠ s.outMin
    ∨ t.outMax ≠ s.outMax ∨ t.active ≠ s.active) : ∃ a b c d, i = .scfg a b c d := by
  rw [exec_eq_withWritten h] at hne
  cases i with
  | scfg a b c d => exact ⟨a, b, c, d, rfl⟩
  | _ => simp [withWritten] at hne

/-- RX is written by POLL and by the arrival of a wire word alone (R33, R34). -/
theorem exec_rx (h : exec i s = .next t) (hne : t.rx ≠ s.rx) : i = .poll ∨ operation i = false := by
  rw [exec_eq_withWritten h] at hne
  cases i with
  | poll => exact .inl rfl
  | hdrInt | hdrExt | slotC | slotX | slotFill => exact .inr rfl
  | _ => exact absurd rfl hne

/-- OUT is written by the three encodes alone (R32). -/
theorem exec_out (h : exec i s = .next t) (hne : t.out ≠ s.out) :
    (∃ f internal swap fades system samples, i = .enc f internal swap fades system samples)
      ∨ (∃ fades, i = .encp fades) ∨ ∃ fades, i = .enca fades := by
  rw [exec_eq_withWritten h] at hne
  cases i with
  | enc f internal swap fades system samples => exact .inl ⟨f, internal, swap, fades, system, samples, rfl⟩
  | encp fades => exact .inr (.inl ⟨fades, rfl⟩)
  | enca fades => exact .inr (.inr ⟨fades, rfl⟩)
  | _ => exact absurd rfl hne

/-- The register file is written by POLL and CHWR alone (R10). -/
theorem exec_raw (h : exec i s = .next t) (hpoll : i ≠ .poll) (hchwr : ∀ ch v, i ≠ .chwr ch v) : t.raw = s.raw := by
  rw [exec_eq_withWritten h]
  cases i with
  | poll => exact absurd rfl hpoll
  | chwr ch v => exact absurd rfl (hchwr ch v)
  | _ => rfl

/-- CHWR writes no register but the one it names (R78). -/
theorem execChwr_raw_of_ne {ch c : Channel} {value : TVal} (h : execChwr ch value s = .next t) (hne : c ≠ ch) :
    t.raw[c] = s.raw[c] := by
  rcases execChwr_next ch value h with ⟨-, rfl⟩ | ⟨-, -, rfl⟩ | ⟨-, -, rfl⟩
  · rfl
  · exact (getElem_set_raw s.raw ch c _).trans (if_neg hne.symm)
  · rfl

/-- Settles O12: the register file is POLL's and CHWR's, and CHWR sets one register. -/
theorem registersWrittenOnlyByPollAndChwr : Obligations.RegistersWrittenOnlyByPollAndChwr := by
  unfold Obligations.RegistersWrittenOnlyByPollAndChwr
  refine fun i s t h => ⟨exec_raw h, ?_⟩
  rintro ch v rfl c hne
  exact execChwr_raw_of_ne h hne

/-! ## An invariant of POLL's loop (R111, R120) -/

/-- What each frame keeps, POLL's loop keeps; and what holds of the report of each frame holds of every report. -/
theorem ingestFrames_invariant {P : State → Prop} {Q : FrameReport → Prop}
    (hframe : ∀ frame u, P u → P (ingestFrame frame u).1 ∧ Q (ingestFrame frame u).2)
    (rx : List Byte) (offsets : List Nat) (s : State) (hs : P s) :
    P (ingestFrames rx offsets s).1 ∧ ∀ r ∈ (ingestFrames rx offsets s).2, Q r := by
  induction offsets generalizing s with
  | nil => exact ⟨hs, nofun⟩
  | cons off offsets ih =>
      obtain ⟨hkept, hreport⟩ := hframe (readBytes rx off 16) s hs
      obtain ⟨hend, hreports⟩ := ih _ hkept
      rw [ingestFrames_cons]
      exact ⟨hend, List.forall_mem_cons.mpr ⟨hreport, hreports⟩⟩

/-- What each frame and the end of an operation keep, POLL keeps; and what holds of the report of each frame holds of every
report it answers. -/
theorem execPoll_invariant {P : State → Prop} {Q : FrameReport → Prop}
    (hframe : ∀ frame u, P u → P (ingestFrame frame u).1 ∧ Q (ingestFrame frame u).2)
    (hend : ∀ u n status result, P u → P ((u.consume n).respond status result))
    (hs : P s) (h : execPoll s = .next t) :
    P t ∧ ∀ reports, t.response = some ⟨.ok, .reports reports⟩ → ∀ r ∈ reports, Q r := by
  rcases execPoll_next h with ⟨-, rfl⟩ | ⟨-, rfl⟩
  · exact ⟨hend s 0 _ _ hs, nofun⟩
  · obtain ⟨hP, hQ⟩ := ingestFrames_invariant hframe s.rx (selectFrames s.rx.length s.procall).1 s hs
    refine ⟨hend _ _ _ _ hP, ?_⟩
    rintro reports ⟨⟩
    exact hQ

/-- Ingesting a frame keeps INTERNAL and the instance. -/
@[simp] theorem ingestFrame_internal (frame : List Byte) (s : State) : (ingestFrame frame s).1.internal = s.internal := by
  rw [ingestFrame_eq]

@[simp] theorem ingestFrame_cfg (frame : List Byte) (s : State) : (ingestFrame frame s).1.cfg = s.cfg := by
  rw [ingestFrame_eq]

/-- The report gives the Format the frame was decoded under (R117, R118). -/
theorem ingestFrame_reported_format (frame : List Byte) (s : State) : (ingestFrame frame s).2.format = s.format := rfl

/-! ## External mode (R114, R115) -/

/-- Settles O49: in external mode a frame keeps SYSTEM and FORMAT, and so does the loop. -/
theorem externalModeNeverAdopts : Obligations.ExternalModeNeverAdopts := by
  unfold Obligations.ExternalModeNeverAdopts
  intro s t reports hi h
  have hkept := execPoll_invariant (P := fun u => u.internal = false ∧ u.system = s.system ∧ u.format = s.format)
    (Q := fun r => r.valid = true ∧ r.adopted = false ∧ r.system = none ∧ r.format = s.format)
    ?frame (fun _ _ _ _ hu => hu) ⟨hi, rfl, rfl⟩ h
  case frame =>
    rintro frame u ⟨hext, hsystem, hformat⟩
    obtain ⟨-, hnone, hvalid, hadopted, hsystem1, hformat1⟩ := ingestFrame_external frame u hext
    rw [ingestFrame_internal, hsystem1, hformat1, ingestFrame_reported_format]
    exact ⟨⟨hext, hsystem, hformat⟩, hvalid, hadopted, hnone, hformat⟩
  obtain ⟨⟨-, hsystem, hformat⟩, hreports⟩ := hkept
  exact ⟨hsystem, hformat, hreports reports⟩

/-! ## Reports (R118) -/

/-- An adopted system is a known one, so its frame is valid, and the mode is internal (R114, R115). -/
theorem ingestFrame_valid_of_adopted (frame : List Byte) (s : State) (h : (ingestFrame frame s).2.adopted = true) :
    (ingestFrame frame s).2.valid = true ∧ s.internal = true := by
  obtain ⟨p, hp⟩ := Option.isSome_iff_exists.mp h
  obtain ⟨hi, hx, -, hf⟩ := (adoption_eq_some_iff ..).mp hp
  refine ⟨?_, hi⟩
  rw [ingestFrame_reported_valid, hi, show frameSystem true frame = some p.1 from hi ▸ hx]
  simp [isValidSystem, known, hf]

/-- Settles O50: the report of a frame says so for every state, and a frame keeps the mode and the instance. -/
theorem reportsAccountForTheirFrame : Obligations.ReportsAccountForTheirFrame := by
  unfold Obligations.ReportsAccountForTheirFrame
  intro s t reports h hresponse
  refine (execPoll_invariant (P := fun u => u.internal = s.internal ∧ u.cfg = s.cfg) ?frame ?ending ⟨rfl, rfl⟩ h).2
    reports hresponse
  case ending => exact fun _ _ _ _ hu => hu
  case frame =>
    rintro frame u ⟨hi, hcfg⟩
    rw [ingestFrame_internal, ingestFrame_cfg, ← hi, ← hcfg]
    refine ⟨⟨rfl, rfl⟩, ingestFrame_count frame u, fun hext => ?_, fun hint => ?_, ingestFrame_valid_of_adopted frame u⟩
    · obtain ⟨-, hsystem, hvalid, -⟩ := ingestFrame_external frame u hext
      exact ⟨hsystem, hvalid⟩
    · obtain ⟨hfades, hsystem, hvalid⟩ := ingestFrame_internal_report frame u hint
      exact ⟨hfades ▸ (frame.getD 0 0#8).isLt, _, hsystem, hvalid⟩

/-! ## The fields of POLL (R14, R15) -/

/-- SYSTEM and FORMAT are written by POLL in internal mode, SETSYS and SETMODE alone (R14, R15). -/
theorem exec_system (h : exec i s = .next t) (hne : t.system ≠ s.system ∨ t.format ≠ s.format) :
    (i = .poll ∧ s.internal = true) ∨ (∃ sys internal, i = .setsys sys internal) ∨ ∃ m, i = .setmode m := by
  cases i with
  | poll =>
      refine .inl ⟨rfl, Bool.of_not_eq_false fun hext => ?_⟩
      obtain ⟨hsystem, hformat, -⟩ := externalModeNeverAdopts s t [] hext h
      exact hne.elim (absurd hsystem) (absurd hformat)
  | setsys sys internal => exact .inr (.inl ⟨sys, internal, rfl⟩)
  | setmode m => exact .inr (.inr ⟨m, rfl⟩)
  | _ =>
      rw [exec_eq_withWritten h] at hne
      exact hne.elim (absurd rfl) (absurd rfl)

/-- Settles O13: each clause is the writers of one group of fields. -/
theorem fieldsWrittenOnlyByTheirOperations : Obligations.FieldsWrittenOnlyByTheirOperations := by
  unfold Obligations.FieldsWrittenOnlyByTheirOperations
  intro i s t h
  refine ⟨exec_system h, exec_internal h, exec_options h, exec_scaler h, exec_rx h, ?_, exec_keeps_constants h⟩
  rintro ⟨a, hne⟩
  exact exec_out h fun heq => hne (by rw [heq])

/-! ## Consistency -/

/-- Settles O6: RST_SYSTEM is known, so FORMAT is its Format, and OUT is empty. -/
theorem constructedStateIsConsistent : Obligations.ConstructedStateIsConsistent := by
  unfold Obligations.ConstructedStateIsConsistent
  intro cfg hwf
  have hknown : known cfg cfg.rstSystem = true := by
    simp only [Config.wf, Bool.and_eq_true] at hwf
    obtain ⟨⟨⟨-, hknown⟩, -⟩, -⟩ := hwf
    exact hknown
  obtain ⟨f, hf⟩ := Option.isSome_iff_exists.mp hknown
  refine ⟨hwf, ?_, rfl, Memory.wf_construct cfg, nofun⟩
  simp [State.construct, hf]

/-- Settles O5: the fields of construction; the consistency of the constructed state gives FORMAT. -/
theorem constructedState : Obligations.ConstructedState := by
  unfold Obligations.ConstructedState
  intro cfg hwf
  obtain ⟨-, hformat, -⟩ := constructedStateIsConsistent cfg hwf
  exact ⟨construct_raw_getElem cfg, rfl, hformat, rfl, rfl, rfl, rfl, rfl, rfl⟩

/-- FORMAT is the Format of SYSTEM, which is known (R14, R15). -/
def FormatOfSystem (s : State) : Prop := fmtOf s.cfg s.system = some s.format

/-- OUT has the canonical form and 16 bytes (R30, log 4). -/
def OutIsPort (m : Memory) : Prop := Memory.wf m ∧ ∀ x ∈ m, x.1 < 16

theorem ingestFrame_formatOfSystem (frame : List Byte) (s : State) (h : FormatOfSystem s) :
    FormatOfSystem (ingestFrame frame s).1 := by
  rw [FormatOfSystem, ingestFrame_cfg]
  cases ha : adoption s.cfg s.internal s.system (frameSystem s.internal frame) with
  | none =>
      obtain ⟨-, hsystem, hformat⟩ := ingestFrame_of_adoption_none frame s ha
      rw [hsystem, hformat]
      exact h
  | some p =>
      obtain ⟨-, hsystem, hformat⟩ := ingestFrame_of_adoption_some frame s ha
      obtain ⟨-, -, -, hf⟩ := (adoption_eq_some_iff ..).mp ha
      rw [hsystem, hformat, hf]

theorem setSystem_formatOfSystem {sys : Byte} {internal : Bool} (hs : FormatOfSystem s)
    (h : setSystem sys internal s = .next t) : FormatOfSystem t := by
  rcases setSystem_next sys internal h with ⟨-, rfl⟩ | ⟨f, hf, rfl⟩
  · exact hs
  · exact hf

/-- Every instruction keeps FORMAT the Format of SYSTEM. -/
theorem exec_formatOfSystem (hs : FormatOfSystem s) (h : exec i s = .next t) : FormatOfSystem t := by
  cases i with
  | poll =>
      exact (execPoll_invariant (Q := fun _ => True) (fun frame u hu => ⟨ingestFrame_formatOfSystem frame u hu, trivial⟩)
        (fun _ _ _ _ hu => hu) hs h).1
  | setsys sys internal => exact setSystem_formatOfSystem hs h
  | setmode m => exact setSystem_formatOfSystem hs h
  | _ =>
      rw [exec_eq_withWritten h]
      exact hs

/-- Writing a frame keeps OUT a port of 16 bytes. -/
theorem outIsPort_writeBytes {m : Memory} (hm : OutIsPort m) {frame : List Byte} (hl : frame.length = 16) :
    OutIsPort (Memory.writeBytes m 0 frame) := by
  obtain ⟨hwf, hbound⟩ := hm
  refine ⟨Memory.wf_writeBytes frame m 0 hwf, fun x hx => ?_⟩
  rcases Memory.mem_writeBytes frame m 0 x hx with hold | ⟨-, hnew⟩
  · exact hbound x hold
  · omega

/-- Every instruction keeps OUT a port of 16 bytes: the encodes write one frame. -/
theorem exec_outIsPort (hs : OutIsPort s.out) (h : exec i s = .next t) : OutIsPort t.out := by
  cases i with
  | enc f internal swap fades system samples =>
      obtain ⟨-, rfl⟩ := execEnc_next f internal swap fades system samples h
      exact outIsPort_writeBytes hs (encodeFrame_length ..)
  | encp fades =>
      obtain rfl := encodeBatch_next primaryChannels fades h
      exact outIsPort_writeBytes hs (encodeFrame_length ..)
  | enca fades =>
      obtain rfl := encodeBatch_next auxiliaryChannels fades h
      exact outIsPort_writeBytes hs (encodeFrame_length ..)
  | _ =>
      rw [exec_eq_withWritten h]
      exact hs

/-- Every instruction keeps the state consistent. -/
theorem exec_inv (hs : s.Inv) (h : exec i s = .next t) : t.Inv := by
  obtain ⟨hwf, hformat, hrnd, hout⟩ := hs
  obtain ⟨hrnd1, hcfg1, -⟩ := exec_keeps_constants h
  refine ⟨hcfg1 ▸ hwf, exec_formatOfSystem hformat h, ?_, exec_outIsPort hout h⟩
  rw [hrnd1, hcfg1, hrnd]

/-! ## One step -/

/-- A step with an input waiting runs it, with the later inputs still waiting. -/
theorem step_cons {input : Input} {rest : List Input} (hin : s.inputs = input :: rest) :
    step s = runInput input (s.withInputs rest) := by
  rw [step, hin]

/-- A step with no input changes nothing (R148). -/
theorem step_nil (hin : s.inputs = []) : step s = .next s := by
  rw [step, hin]

/-- Settles O1: a step by its oldest input, and a presented image by what it decodes to. -/
theorem stepRunsThePresentedInstruction : Obligations.StepRunsThePresentedInstruction := by
  unfold Obligations.StepRunsThePresentedInstruction
  refine fun s rest => ⟨fun e i hin hd => step_of_decode hin hd, fun e reason hin hd => ?_, fun bytes hin => ?_, step_nil⟩
  · rw [step_cons hin, runInput, runEncoded, hd]
    rfl
  · exact step_cons hin

/-- Settles O7: received bytes and the taking of an input touch no field of the invariant, and every instruction keeps
it. -/
theorem stepKeepsConsistency : Obligations.StepKeepsConsistency := by
  unfold Obligations.StepKeepsConsistency
  intro s t hs h
  cases hin : s.inputs with
  | nil =>
      rw [step_nil hin] at h
      cases h
      exact hs
  | cons input rest =>
      cases input with
      | receive bytes =>
          rw [step_cons hin] at h
          cases h
          exact hs
      | present e =>
          cases hd : decode e with
          | ok i =>
              rw [step_of_decode hin hd] at h
              exact exec_inv (s := s.withInputs rest) hs h
          | error reason =>
              rw [step_cons hin, runInput, runEncoded, hd] at h
              cases h

end Sys2Proof.Machine
end

section
/-! How an operation ends (R5, R140, R153), and what it does not read: an earlier status (R5), OUT (R32), and the bounds of
an inactive scaler (R19, R20). -/

namespace Sys2Proof.Machine

variable {i : Instr} {s t : State}

/-! ## Every expressible instruction has a next state (R153) -/

theorem execScale_answers (raw : RawVal) (s : State) : ∃ t, execScale raw s = .next t := by
  rw [execScale]
  cases scaleValue s raw <;> exact ⟨_, rfl⟩

theorem execDescale_answers (value : TVal) (s : State) : ∃ t, execDescale value s = .next t := by
  rw [execDescale]
  cases descaleValue s value <;> exact ⟨_, rfl⟩

theorem execChwr_answers (ch : Channel) (value : TVal) (s : State) : ∃ t, execChwr ch value s = .next t := by
  rw [execChwr]
  cases descaleValue s value <;> exact ⟨_, rfl⟩

theorem setSystem_answers (sys : Byte) (internal : Bool) (s : State) : ∃ t, setSystem sys internal s = .next t := by
  rw [setSystem]
  cases fmtOf s.cfg sys <;> exact ⟨_, rfl⟩

theorem execPoll_answers (s : State) : ∃ t, execPoll s = .next t := by
  by_cases hl : s.rx.length < 16
  · exact ⟨_, execPoll_short s hl⟩
  · exact ⟨_, execPoll_eq s (by omega)⟩

theorem execDec_answers (f : Format) (internal swap : Bool) {bytes : List Byte} (hl : bytes.length ≤ 16) (s : State) :
    ∃ t, execDec f internal swap bytes s = .next t := by
  rcases hl.lt_or_eq with hlt | heq
  · exact ⟨_, execDec_of_length_lt s f internal swap hlt⟩
  · exact ⟨_, execDec_of_length_eq s f internal swap heq⟩

/-- Every instruction that the ports can express has a next state, in every state. -/
theorem exec_answers (hw : i.wf = true) (s : State) : ∃ t, exec i s = .next t := by
  cases i with
  | scale raw => exact execScale_answers raw s
  | chrd ch => exact execScale_answers s.raw[ch] s
  | descale value => exact execDescale_answers value s
  | chwr ch value => exact execChwr_answers ch value s
  | setsys sys internal => exact setSystem_answers sys internal s
  | setmode m => exact setSystem_answers _ _ s
  | poll => exact execPoll_answers s
  | dec f internal swap bytes => exact execDec_answers f internal swap (of_decide_eq_true hw) s
  | enc f internal swap fades system samples =>
      exact ⟨_, execEnc_of_length_le s f internal swap fades system (of_decide_eq_true hw)⟩
  | encp | enca | scfg | setopt | reserved0 | reservedD | reservedE | reservedF | hdrInt | hdrExt | slotC | slotX
  | slotFill => exact ⟨_, rfl⟩

/-! ## The status (R5, R140) -/

/-- The codes are 0 to 6. -/
theorem statusCode_le (status : Status) : statusCode status ≤ 6 := by
  cases status <;> simp [statusCode]

/-- Every operation of the host leaves one status. -/
theorem exec_response_of_operation (ho : operation i = true) (h : exec i s = .next t) :
    ∃ status result, t.response = some ⟨status, result⟩ := by
  rcases exec_endsWithCause ho h with ⟨result, hok⟩ | ⟨status, -, rfl⟩
  · exact ⟨.ok, result, hok⟩
  · exact ⟨status, .none, rfl⟩

/-- Settles O8: every expressible instruction has a next state, and an operation leaves a status there. -/
theorem everyOperationEndsWithOneStatus : Obligations.EveryOperationEndsWithOneStatus := by
  unfold Obligations.EveryOperationEndsWithOneStatus
  intro i s hw
  obtain ⟨t, h⟩ := exec_answers hw s
  refine ⟨t, h, fun ho => ?_⟩
  obtain ⟨status, result, hresponse⟩ := exec_response_of_operation ho h
  exact ⟨status, result, hresponse, statusCode_le status⟩

/-- An operation that ends with a status other than OK changed nothing but the response port (R5). -/
theorem exec_of_status_ne_ok {status : Status} {result : Result} (ho : operation i = true) (h : exec i s = .next t)
    (hr : t.response = some ⟨status, result⟩) (hne : status ≠ .ok) : t = s.respond status .none := by
  obtain ⟨hcause, -⟩ := cause_of_response ho h hr hne
  rw [exec_of_cause hcause] at h
  cases h
  rfl

/-- No operation reads the response port (R5). -/
theorem exec_response_irrelevant (ho : operation i = true) (s : State) (r : Option Response) :
    exec i { s with response := r } = exec i s := by
  cases i with
  | poll => exact execPoll_response_irrelevant s r
  | hdrInt | hdrExt | slotC | slotX | slotFill => cases ho
  | _ => rfl

/-- Settles O10: a status other than OK has its cause, which writes nothing; every operation leaves a status and reads
none. -/
theorem raisingWritesNothing : Obligations.RaisingWritesNothing := by
  unfold Obligations.RaisingWritesNothing
  refine ⟨fun i s t status result ho h hr hne => exec_of_status_ne_ok ho h hr hne, fun i s t ho h => ?_,
    fun i s r ho => exec_response_irrelevant ho s r⟩
  obtain ⟨status, result, hresponse⟩ := exec_response_of_operation ho h
  simp [hresponse]

/-! ## Read-only operations (R39) -/

/-- An operation that wrote the response port alone does the same again. -/
theorem exec_again_of_frame (ho : operation i = true) (h : exec i s = .next t) (ht : t = { s with response := t.response }) :
    exec i t = .next t := by
  rw [ht, exec_response_irrelevant ho, h, ← ht]

/-- The state after an encode of `frame` is not changed by writing the same frame again. -/
theorem respond_writeOut_idem (s : State) (hm : Memory.wf s.out) (frame : List Byte) :
    (((s.writeOut frame).respond .ok .out).writeOut frame).respond .ok .out = (s.writeOut frame).respond .ok .out := by
  have hout : (((s.writeOut frame).respond .ok .out).writeOut frame).out = (s.writeOut frame).out :=
    writeBytes_writeBytes s.out hm frame
  exact congrArg (fun m => { s with out := m, response := some ⟨.ok, .out⟩ }) hout

/-- ENCP and ENCA read no field that they write. -/
theorem encodeBatch_again (channels : List Channel) (fades : Fades) (hm : Memory.wf s.out)
    (h : encodeBatch channels fades s = .next t) : encodeBatch channels fades t = .next t := by
  obtain rfl := encodeBatch_next channels fades h
  exact congrArg Host.Outcome.next (respond_writeOut_idem s hm _)

/-- Each of the seven operations, done again at once, changes nothing. -/
theorem exec_again_of_readOnlyRow (hrow : readOnlyRow i = true) (hm : Memory.wf s.out) (h : exec i s = .next t) :
    exec i t = .next t := by
  cases i with
  | scale | descale | chrd | dec => exact exec_again_of_frame rfl h (exec_eq_withWritten h)
  | enc f internal swap fades system samples =>
      obtain ⟨hl, rfl⟩ := execEnc_next f internal swap fades system samples h
      refine (execEnc_of_length_le _ f internal swap fades system hl).trans ?_
      exact congrArg Host.Outcome.next (respond_writeOut_idem s hm _)
  | encp fades => exact encodeBatch_again primaryChannels fades hm h
  | enca fades => exact encodeBatch_again auxiliaryChannels fades hm h
  | _ => cases hrow

/-- The seven operations write OUT and the response port alone. -/
theorem exec_frame_of_readOnlyRow (hrow : readOnlyRow i = true) (h : exec i s = .next t) :
    t = { s with out := t.out, response := t.response } := by
  rw [exec_eq_withWritten h]
  cases i with
  | scale | descale | chrd | dec | enc | encp | enca => rfl
  | _ => cases hrow

/-- Settles O40: what the seven operations write, and that none of them reads it. -/
theorem readOnlyOperationsAreIdempotent : Obligations.ReadOnlyOperationsAreIdempotent := by
  unfold Obligations.ReadOnlyOperationsAreIdempotent
  exact fun i s t hrow hm h => ⟨exec_frame_of_readOnlyRow hrow h, exec_again_of_readOnlyRow hrow hm h⟩

/-! ## Updates that no operation sees -/

/-- `f` changes no field that an instruction other than SCFG and the encodes reads or writes, the scaler's fields apart:
`f` leaves those fields, and commutes with the updates of those instructions. -/
structure Unseen (f : State → State) : Prop where
  raw : ∀ s, (f s).raw = s.raw
  system : ∀ s, (f s).system = s.system
  format : ∀ s, (f s).format = s.format
  internal : ∀ s, (f s).internal = s.internal
  swap : ∀ s, (f s).swap = s.swap
  procall : ∀ s, (f s).procall = s.procall
  rx : ∀ s, (f s).rx = s.rx
  cfg : ∀ s, (f s).cfg = s.cfg
  respond : ∀ s status result, (f s).respond status result = f (s.respond status result)
  writeRaw : ∀ s ch v, (f s).writeRaw ch v = f (s.writeRaw ch v)
  withSystem : ∀ s system format, (f s).withSystem system format = f (s.withSystem system format)
  withInternal : ∀ s internal, (f s).withInternal internal = f (s.withInternal internal)
  withOptions : ∀ s swap procall, (f s).withOptions swap procall = f (s.withOptions swap procall)
  receive : ∀ s bytes, (f s).receive bytes = f (s.receive bytes)
  consume : ∀ s n, (f s).consume n = f (s.consume n)

namespace Unseen

variable {f : State → State}

theorem storeSamples (hf : Unseen f) (s : State) (samples : List Sample) :
    (f s).storeSamples samples = f (s.storeSamples samples) := by
  induction samples generalizing s with
  | nil => rfl
  | cons x samples ih =>
      have h : ∀ u : State, u.storeSamples (x :: samples) = (u.writeRaw x.id x.val).storeSamples samples := fun _ => rfl
      rw [h, h, hf.writeRaw, ih]

theorem adopt (hf : Unseen f) (s : State) (x : Option Byte) : (f s).adopt x = f (s.adopt x) := by
  rw [State.adopt, State.adopt, hf.cfg, hf.internal, hf.system]
  cases adoption s.cfg s.internal s.system x with
  | none => rfl
  | some p => exact hf.withSystem s p.1 p.2

theorem ingestFrame (hf : Unseen f) (frame : List Byte) (s : State) :
    ingestFrame frame (f s) = (f (ingestFrame frame s).1, (ingestFrame frame s).2) := by
  simp only [Machine.ingestFrame, reportOf, hf.cfg, hf.format, hf.internal, hf.swap, hf.system, hf.storeSamples, hf.adopt]

theorem ingestFrames (hf : Unseen f) (rx : List Byte) (offsets : List Nat) (s : State) :
    ingestFrames rx offsets (f s) = (f (ingestFrames rx offsets s).1, (ingestFrames rx offsets s).2) := by
  induction offsets generalizing s with
  | nil => rfl
  | cons off offsets ih => rw [ingestFrames_cons, ingestFrames_cons, hf.ingestFrame, ih]

theorem execPoll (hf : Unseen f) (h : execPoll s = .next t) : execPoll (f s) = .next (f t) := by
  rcases execPoll_next h with ⟨hl, rfl⟩ | ⟨hl, rfl⟩
  · rw [execPoll_short (f s) (by rwa [hf.rx]), hf.respond]
  · rw [execPoll_eq (f s) (by rwa [hf.rx]), hf.rx, hf.procall, hf.ingestFrames, hf.consume, hf.respond]

theorem setSystem (hf : Unseen f) {sys : Byte} {internal : Bool} (h : setSystem sys internal s = .next t) :
    setSystem sys internal (f s) = .next (f t) := by
  rcases setSystem_next sys internal h with ⟨hnone, rfl⟩ | ⟨format, hformat, rfl⟩
  · rw [setSystem_of_unknown internal (by rw [hf.cfg, known, hnone]; rfl), hf.respond]
  · rw [setSystem_of_fmtOf internal (by rwa [hf.cfg]), hf.withSystem, hf.withInternal, hf.respond]

theorem execDec (hf : Unseen f) {format : Format} {internal swap : Bool} {bytes : List Byte}
    (h : execDec format internal swap bytes s = .next t) : execDec format internal swap bytes (f s) = .next (f t) := by
  rcases execDec_next format internal swap bytes h with ⟨hl, rfl⟩ | ⟨hl, rfl⟩
  · rw [execDec_of_length_lt (f s) format internal swap hl, hf.respond]
  · rw [execDec_of_length_eq (f s) format internal swap hl, hf.cfg, hf.respond]

theorem raise (hf : Unseen f) {status : Status} (h : raise status s = .next t) :
    Machine.raise status (f s) = .next (f t) := by
  rw [raise_next status h, ← hf.respond]
  rfl

theorem complete (hf : Unseen f) {u : State} {result : Result} (h : complete result u = .next t) :
    Machine.complete result (f u) = .next (f t) := by
  rw [complete_next result h, ← hf.respond]
  rfl

theorem execScale (hf : Unseen f) {raw : RawVal} (hv : scaleValue (f s) raw = scaleValue s raw)
    (h : execScale raw s = .next t) : execScale raw (f s) = .next (f t) := by
  rw [Machine.execScale] at h ⊢
  rw [hv]
  cases hs : scaleValue s raw with
  | ok v => rw [hs] at h; exact hf.complete h
  | error e => rw [hs] at h; exact hf.raise h

theorem execDescale (hf : Unseen f) {value : TVal} (hv : descaleValue (f s) value = descaleValue s value)
    (h : execDescale value s = .next t) : execDescale value (f s) = .next (f t) := by
  rw [Machine.execDescale] at h ⊢
  rw [hv]
  cases hs : descaleValue s value with
  | ok r => rw [hs] at h; exact hf.complete h
  | error e => rw [hs] at h; exact hf.raise h

theorem execChwr (hf : Unseen f) {ch : Channel} {value : TVal} (hv : descaleValue (f s) value = descaleValue s value)
    (h : execChwr ch value s = .next t) : execChwr ch value (f s) = .next (f t) := by
  cases hs : descaleValue s value with
  | ok r =>
      rw [execChwr_of_ok ch hs] at h
      cases h
      rw [execChwr_of_ok ch (hv.trans hs), hf.writeRaw, hf.respond]
  | error e =>
      rw [execChwr_of_error ch hs] at h
      cases h
      rw [execChwr_of_error ch (hv.trans hs), hf.respond]

/-- An instruction other than SCFG and the encodes takes `f s` to `f` of what it takes `s` to, where the scaler answers
alike in both. -/
theorem exec (hf : Unseen f) (hscale : ∀ raw, scaleValue (f s) raw = scaleValue s raw)
    (hdescale : ∀ value, descaleValue (f s) value = descaleValue s value)
    (hscfg : ∀ a b c d, i ≠ .scfg a b c d)
    (henc : ∀ format internal swap fades system samples, i ≠ .enc format internal swap fades system samples)
    (hencp : ∀ fades, i ≠ .encp fades) (henca : ∀ fades, i ≠ .enca fades) (h : exec i s = .next t) :
    exec i (f s) = .next (f t) := by
  cases i with
  | scfg a b c d => exact absurd rfl (hscfg a b c d)
  | enc format internal swap fades system samples => exact absurd rfl (henc format internal swap fades system samples)
  | encp fades => exact absurd rfl (hencp fades)
  | enca fades => exact absurd rfl (henca fades)
  | scale raw => exact hf.execScale (hscale raw) h
  | chrd ch =>
      have hread : Machine.exec (.chrd ch) (f s) = Machine.execScale s.raw[ch] (f s) := by
        rw [← hf.raw s]; rfl
      exact hread.trans (hf.execScale (hscale s.raw[ch]) h)
  | descale value => exact hf.execDescale (hdescale value) h
  | chwr ch value => exact hf.execChwr (hdescale value) h
  | dec format internal swap bytes => exact hf.execDec h
  | poll => exact hf.execPoll h
  | setsys sys internal => exact hf.setSystem h
  | setmode m =>
      have hread : Machine.exec (.setmode m) (f s)
          = Machine.setSystem s.cfg.bindTable[m].system s.cfg.bindTable[m].internal (f s) := by
        rw [← hf.cfg s]; rfl
      exact hread.trans (hf.setSystem h)
  | setopt swap procall =>
      rw [exec_setopt, hf.withOptions]
      exact hf.complete h
  | reserved0 | reservedD | reservedE | reservedF => exact hf.raise h
  | hdrInt | hdrExt | slotC | slotX | slotFill =>
      cases h
      exact congrArg Host.Outcome.next (hf.receive s _)

end Unseen

/-! ## OUT (R32) -/

/-- No instruction sees OUT. -/
theorem unseen_out (m : Memory) : Unseen fun s => { s with out := m } := by
  constructor <;> intros <;> rfl

/-- Settles O16: an encode writes OUT from fields that are the same in both states, and no other instruction sees OUT. -/
theorem outIsNeverReadBack : Obligations.OutIsNeverReadBack := by
  unfold Obligations.OutIsNeverReadBack
  intro i s t m h
  cases i with
  | enc f internal swap fades system samples =>
      obtain ⟨hl, rfl⟩ := execEnc_next f internal swap fades system samples h
      exact ⟨_, execEnc_of_length_le { s with out := m } f internal swap fades system hl, rfl⟩
  | scfg | encp | enca =>
      cases h
      exact ⟨_, rfl, rfl⟩
  | _ => exact ⟨_, (unseen_out m).exec (fun _ => rfl) (fun _ => rfl) nofun nofun nofun nofun h, rfl⟩

/-! ## The bounds of an inactive scaler (R19, R20) -/

/-- The state with other bounds, and the same ACTIVE. -/
def withBounds (a b : InVal) (c d : TVal) (s : State) : State :=
  { s with inMin := a, inMax := b, outMin := c, outMax := d }

section

variable (a b : InVal) (c d : TVal)

/-- No instruction but the scaler's sees the bounds. -/
theorem unseen_withBounds : Unseen (withBounds a b c d) := by
  constructor <;> intros <;> rfl

theorem scaleValue_withBounds (ha : s.active = false) (raw : RawVal) :
    scaleValue (withBounds a b c d s) raw = scaleValue s raw := by
  have ha1 : (withBounds a b c d s).active = false := ha
  rw [scaleValue, scaleValue, scaleExact, scaleExact, if_pos ha1, if_pos ha]
  rfl

theorem descaleValue_withBounds (ha : s.active = false) (value : TVal) :
    descaleValue (withBounds a b c d s) value = descaleValue s value := by
  have ha1 : (withBounds a b c d s).active = false := ha
  rw [descaleValue, descaleValue, descaleExact, descaleExact, if_pos ha1, if_pos ha]
  rfl

/-- While the scaler is inactive, no instruction but SCFG sees the bounds or writes them. -/
theorem exec_withBounds (ha : s.active = false) (hscfg : ∀ a1 b1 c1 d1, i ≠ .scfg a1 b1 c1 d1)
    (h : exec i s = .next t) : exec i (withBounds a b c d s) = .next (withBounds a b c d t) := by
  cases i with
  | enc f internal swap fades system samples =>
      obtain ⟨hl, rfl⟩ := execEnc_next f internal swap fades system samples h
      exact execEnc_of_length_le (withBounds a b c d s) f internal swap fades system hl
  | encp | enca => cases h; rfl
  | _ =>
      exact (unseen_withBounds a b c d).exec (scaleValue_withBounds a b c d ha) (descaleValue_withBounds a b c d ha)
        hscfg nofun nofun nofun h

end

/-- Settles O15: SCFG overwrites the bounds, and no other instruction sees them while the scaler is inactive. -/
theorem boundsOfAnInactiveScalerCannotBeObserved : Obligations.BoundsOfAnInactiveScalerCannotBeObserved := by
  unfold Obligations.BoundsOfAnInactiveScalerCannotBeObserved
  intro i s t a b c d ha h
  by_cases hscfg : ∃ a1 b1 c1 d1, i = .scfg a1 b1 c1 d1
  · obtain ⟨a1, b1, c1, d1, rfl⟩ := hscfg
    cases h
    exact ⟨_, rfl, fun _ => rfl, fun hne => absurd rfl (hne a1 b1 c1 d1)⟩
  · have hne : ∀ a1 b1 c1 d1, i ≠ .scfg a1 b1 c1 d1 := fun a1 b1 c1 d1 hi => hscfg ⟨a1, b1, c1, d1, hi⟩
    exact ⟨_, exec_withBounds a b c d ha hne h, fun hi => absurd hi hscfg, fun _ => rfl⟩

end Sys2Proof.Machine
end

section
/-! The scaler: its quantisers are odd (R80), its guards apply in their order (R71), and SCALE is exact at the bounds (R72)
and nearly undone by DESCALE (R79). -/

namespace Sys2Proof.Machine

variable {s : State}

/-! ## Oddness (R80) -/

theorem rha_neg_num (n : ℤ) {m : ℤ} (hm : m ≠ 0) : rha ⟨-n, m⟩ = -rha ⟨n, m⟩ := by
  rw [rha_eq_rhaQ _ _ hm, rha_eq_rhaQ _ _ hm, ← rhaQ_neg]
  push_cast
  rw [neg_div]

theorem rha_neg_den (n : ℤ) {m : ℤ} (hm : m ≠ 0) : rha ⟨n, -m⟩ = -rha ⟨n, m⟩ := by
  rw [rha_eq_rhaQ _ _ (neg_ne_zero.mpr hm), rha_eq_rhaQ _ _ hm, ← rhaQ_neg]
  push_cast
  rw [div_neg]

/-- Settles O26: truncation is odd in either operand, and `rha` because it is R4's over the rationals; the rows of the table
are evaluated. -/
theorem quantisersAreOdd : Obligations.QuantisersAreOdd := by
  unfold Obligations.QuantisersAreOdd
  refine ⟨fun n m hm => ⟨trunc0_neg_num n m, trunc0_neg_den n m, rha_neg_num n hm, rha_neg_den n hm⟩, ?_⟩
  refine ⟨?_, ?_, ?_, ?_, ?_, ?_, ?_, ?_, ?_, fun m => Int.zero_tdiv m⟩ <;> decide

/-! ## The guards (R71) -/

/-- A raw value as a T value of integral T is its number. -/
theorem toInt_setWidth_raw (raw : RawVal) : (raw.setWidth 32 : TVal).toInt = raw.toNat := by
  have hlt := raw.isLt
  rw [BitVec.toInt_eq_toNat_of_lt] <;> rw [BitVec.toNat_setWidth] <;> omega

/-- With integral T an inactive SCALE is the identity (R21, R72). -/
theorem exec_scale_of_inactive_integral (ha : s.active = false) (hF : s.cfg.tFrac = 0) (raw : RawVal) :
    exec (.scale raw) s = .next (s.respond .ok (.value (raw.setWidth 32))) := by
  obtain ⟨v, hv, hscale, -⟩ := scale_descale_of_inactive raw ha (by omega)
  rw [hF, pow_zero, mul_one, ← toInt_setWidth_raw] at hv
  rw [hscale, BitVec.eq_of_toInt_eq hv]

/-- With integral T an inactive DESCALE reads the raw value back (R21, R73). -/
theorem descaleValue_of_inactive_integral (ha : s.active = false) (hF : s.cfg.tFrac = 0) (raw : RawVal) :
    descaleValue s (raw.setWidth 32) = .ok raw := by
  have hspec : descaleSpec s (raw.setWidth 32) = raw.toNat :=
    descaleSpec_of_inactive raw _ ha (by rw [hF, pow_zero, mul_one, toInt_setWidth_raw])
  have hfits : fitsRaw (raw.toNat : ℤ) := by have := raw.isLt; constructor <;> omega
  rw [descaleValue_of_fitsRaw (not_invalidRange_of_inactive ha) (hspec ▸ hfits), hspec, BitVec.ofInt_natCast,
    BitVec.ofNat_toNat, BitVec.setWidth_eq]

/-- DESCALE answers the raw value found. -/
theorem execDescale_of_ok {value : TVal} {r : RawVal} (h : descaleValue s value = .ok r) :
    execDescale value s = .next (s.respond .ok (.raw r)) := by
  rw [execDescale, h]
  rfl

/-- SCALE answers 0 while the input range is proper and the output range degenerate (R71, R72). -/
theorem exec_scale_of_degenerate (ha : s.active = true) (hd : s.inMin ≠ s.inMax) (ho : s.outMin = s.outMax)
    (raw : RawVal) : exec (.scale raw) s = .next (s.respond .ok (.value 0#32)) := by
  have hz : scaleSpec s raw = 0 := by simp [scaleSpec, ha, ho]
  have h := execScale_of_fitsT raw (fun hi => hd hi.2) (by rw [hz]; decide)
  rwa [hz] at h

/-- Settles O23: each guard decides SCALE and DESCALE; CHRD is SCALE of the register, and CHWR writes what DESCALE
answers. -/
theorem scalerGuardsInOrder : Obligations.ScalerGuardsInOrder := by
  unfold Obligations.ScalerGuardsInOrder
  intro s raw value ch
  refine ⟨fun ha hF => ?identity, fun ha hi => ?invalid, fun ha hd ho => ?degenerate⟩
  case identity =>
    have hdescale := descaleValue_of_inactive_integral ha hF raw
    exact ⟨exec_scale_of_inactive_integral ha hF raw, exec_scale_of_inactive_integral ha hF s.raw[ch],
      execDescale_of_ok hdescale, execChwr_of_ok ch hdescale⟩
  case invalid =>
    exact ⟨exec_of_invalidRange rfl ⟨ha, hi⟩, exec_of_invalidRange rfl ⟨ha, hi⟩, exec_of_invalidRange rfl ⟨ha, hi⟩,
      exec_of_invalidRange rfl ⟨ha, hi⟩⟩
  case degenerate =>
    have hdescale := descaleValue_of_degenerate value ha hd ho
    exact ⟨exec_scale_of_degenerate ha hd ho raw, exec_scale_of_degenerate ha hd ho s.raw[ch],
      execDescale_of_ok hdescale, execChwr_of_ok ch hdescale⟩

/-! ## The quotients of an active scaler -/

/-- Distinct bounds are distinct numbers. -/
theorem toInt_sub_ne_zero {n : Nat} {x y : BitVec n} (h : x ≠ y) : (y.toInt : ℚ) - x.toInt ≠ 0 := by
  intro hzero
  have heq : (y.toInt : ℚ) = x.toInt := by linarith
  exact h (BitVec.eq_of_toInt_eq (by exact_mod_cast heq.symm))

/-- `q` of R72: the exact T encoding that SCALE quantises. -/
def scaleQuotient (s : State) (raw : RawVal) : ℚ :=
  (((raw.toNat : ℚ) - s.inMin.toInt) * ((s.outMax.toInt : ℚ) - s.outMin.toInt))
    / ((s.inMax.toInt : ℚ) - s.inMin.toInt) + s.outMin.toInt

/-- `q` of R73: the exact raw value that DESCALE quantises. -/
def descaleQuotient (s : State) (value : TVal) : ℚ :=
  (((value.toInt : ℚ) - s.outMin.toInt) * ((s.inMax.toInt : ℚ) - s.inMin.toInt))
    / ((s.outMax.toInt : ℚ) - s.outMin.toInt) + s.inMin.toInt

/-- In an instance RND is set exactly for integral T (R22). -/
theorem rnd_eq_true_iff (hs : s.Inv) : s.rnd = true ↔ s.cfg.tFrac = 0 := by
  obtain ⟨-, -, hrnd, -⟩ := hs
  rw [hrnd, beq_iff_eq]

/-- Either quantisation of R72 is to an integer of T's encoding. -/
theorem scaleSpec_of_active (hs : s.Inv) (ha : s.active = true) (ho : s.outMin ≠ s.outMax) (raw : RawVal) :
    scaleSpec s raw = if s.rnd then rhaQ (scaleQuotient s raw) else truncQ (scaleQuotient s raw) := by
  rw [scaleSpec, if_neg (by simp [ha]), if_neg ho]
  by_cases hr : s.rnd = true
  · have hF := (rnd_eq_true_iff hs).mp hr
    simp only [hr, hF, pow_zero, div_one, mul_one]
    rfl
  · simp only [hr]
    rfl

theorem descaleSpec_of_active (ha : s.active = true) (ho : s.outMin ≠ s.outMax) (value : TVal) :
    descaleSpec s value = if s.rnd then rhaQ (descaleQuotient s value) else truncQ (descaleQuotient s value) := by
  have hactive : ¬ s.active = false := by simp [ha]
  rw [descaleSpec, if_neg (fun h => ho h.2)]
  simp only [if_neg hactive]
  rfl

/-! ## The bounds map to the bounds (R72) -/

/-- SCALE answers a T value that its quotient is. -/
theorem exec_scale_of_quotient (hs : s.Inv) (ha : s.active = true) (hd : s.inMin ≠ s.inMax) (ho : s.outMin ≠ s.outMax)
    (raw : RawVal) (v : TVal) (hq : scaleQuotient s raw = v.toInt) :
    exec (.scale raw) s = .next (s.respond .ok (.value v)) := by
  have hspec : scaleSpec s raw = v.toInt := by
    rw [scaleSpec_of_active hs ha ho, hq, rhaQ_intCast, truncQ_intCast, ite_self]
  have hfits : fitsT v.toInt := by
    have hlo := BitVec.le_toInt v
    have hhi := BitVec.toInt_lt (x := v)
    constructor <;> omega
  have h := execScale_of_fitsT raw (fun hi => hd hi.2) (hspec ▸ hfits)
  rwa [hspec, BitVec.ofInt_toInt] at h

/-- Settles O19: at an input bound the quotient is the output bound, an integer, which either quantiser keeps. -/
theorem scaleIsExactAtTheBounds : Obligations.ScaleIsExactAtTheBounds := by
  unfold Obligations.ScaleIsExactAtTheBounds
  intro s raw hs ha hd ho
  have hne := toInt_sub_ne_zero hd
  refine ⟨fun hraw => ?_, fun hraw => ?_⟩
  all_goals
    have hrawQ : (raw.toNat : ℚ) = _ := congrArg (Int.cast (R := ℚ)) hraw
    refine exec_scale_of_quotient hs ha hd ho raw _ ?_
    rw [scaleQuotient, hrawQ]
    field_simp
    ring

/-! ## DESCALE of SCALE (R79) -/

/-- What SCALE answered is its formula, which T could hold. -/
theorem toInt_of_exec_scale {raw : RawVal} {v : TVal}
    (h : exec (.scale raw) s = .next { s with response := some ⟨.ok, .value v⟩ }) : v.toInt = scaleSpec s raw := by
  rcases execScale_next raw h with ⟨-, ht⟩ | ⟨-, hf, ht⟩ | ⟨-, -, ht⟩
  · cases congrArg State.response ht
  · have hv : v = BitVec.ofInt 32 (scaleSpec s raw) := by simpa using congrArg State.response ht
    rw [hv, toInt_ofInt_of_fitsT _ hf]
  · cases congrArg State.response ht

/-- What DESCALE answered is its formula, which is a raw value. -/
theorem toNat_of_exec_descale {value : TVal} {r : RawVal}
    (h : exec (.descale value) s = .next { s with response := some ⟨.ok, .raw r⟩ }) :
    (r.toNat : ℤ) = descaleSpec s value := by
  rcases execDescale_next value h with ⟨-, ht⟩ | ⟨-, hf, ht⟩ | ⟨-, -, ht⟩
  · cases congrArg State.response ht
  · have hr : r = BitVec.ofInt 11 (descaleSpec s value) := by simpa using congrArg State.response ht
    rw [hr, toNat_ofInt_of_fitsRaw _ hf]
  · cases congrArg State.response ht

/-- `trunc0` is less than 1 from its quotient (R4). -/
theorem truncQ_near (q : ℚ) : |(truncQ q : ℚ) - q| < 1 := by
  have hf := Int.floor_le q
  have hf1 := Int.lt_floor_add_one q
  have hc := Int.le_ceil q
  have hc1 := Int.ceil_lt_add_one q
  rw [truncQ, abs_lt]
  split <;> constructor <;> linarith

/-- The range of the scaler's raw side as a number. -/
def inSpan (s : State) : ℚ := |(s.inMax.toInt : ℚ) - s.inMin.toInt|

/-- The range of the scaler's T side as a number. -/
def outSpan (s : State) : ℚ := |(s.outMax.toInt : ℚ) - s.outMin.toInt|

section

variable (hd : s.inMin ≠ s.inMax) (ho : s.outMin ≠ s.outMax)

include ho in
theorem outSpan_pos : 0 < outSpan s := abs_pos.mpr (toInt_sub_ne_zero ho)

include hd in
theorem inSpan_pos : 0 < inSpan s := abs_pos.mpr (toInt_sub_ne_zero hd)

include hd ho

/-- The quotient of DESCALE is off the raw value by SCALE's rounding, scaled by the slope of the inverse line. -/
theorem outSpan_mul_descaleQuotient_sub (raw : RawVal) (v : TVal) :
    outSpan s * |descaleQuotient s v - raw.toNat| = |(v.toInt : ℚ) - scaleQuotient s raw| * inSpan s := by
  have hin := toInt_sub_ne_zero hd
  have hout := toInt_sub_ne_zero ho
  rw [outSpan, inSpan, ← abs_mul, ← abs_mul]
  congr 1
  rw [descaleQuotient, scaleQuotient]
  field_simp
  ring

/-- DESCALE's rounding adds to SCALE's. -/
theorem outSpan_mul_error_le (raw r : RawVal) (v : TVal) :
    outSpan s * |(r.toNat : ℚ) - raw.toNat| ≤
      outSpan s * |(r.toNat : ℚ) - descaleQuotient s v| + |(v.toInt : ℚ) - scaleQuotient s raw| * inSpan s := by
  rw [← outSpan_mul_descaleQuotient_sub hd ho, ← mul_add]
  exact mul_le_mul_of_nonneg_left (abs_sub_le _ _ _) (outSpan_pos ho).le

/-- With both values rounded to nearest, the error is half the two ranges. -/
theorem outSpan_mul_error_le_of_rha {raw r : RawVal} {v : TVal} (hv : v.toInt = rhaQ (scaleQuotient s raw))
    (hr : (r.toNat : ℤ) = rhaQ (descaleQuotient s v)) :
    2 * outSpan s * |(r.toNat : ℚ) - raw.toNat| ≤ outSpan s + inSpan s := by
  have hrQ : (r.toNat : ℚ) = (rhaQ (descaleQuotient s v) : ℚ) := by exact_mod_cast hr
  have hscale : |(v.toInt : ℚ) - scaleQuotient s raw| ≤ 1 / 2 := by rw [hv]; exact (rhaQ_near _).1
  have hdescale : |(r.toNat : ℚ) - descaleQuotient s v| ≤ 1 / 2 := by rw [hrQ]; exact (rhaQ_near _).1
  have hout := mul_le_mul_of_nonneg_left hdescale (outSpan_pos ho).le
  have hin := mul_le_mul_of_nonneg_right hscale (inSpan_pos hd).le
  have hsum := outSpan_mul_error_le hd ho raw r v
  linarith

/-- With both values truncated, the error is below the two ranges. -/
theorem outSpan_mul_error_lt_of_trunc {raw r : RawVal} {v : TVal} (hv : v.toInt = truncQ (scaleQuotient s raw))
    (hr : (r.toNat : ℤ) = truncQ (descaleQuotient s v)) :
    outSpan s * |(r.toNat : ℚ) - raw.toNat| < outSpan s + inSpan s := by
  have hrQ : (r.toNat : ℚ) = (truncQ (descaleQuotient s v) : ℚ) := by exact_mod_cast hr
  have hscale : |(v.toInt : ℚ) - scaleQuotient s raw| < 1 := by rw [hv]; exact truncQ_near _
  have hdescale : |(r.toNat : ℚ) - descaleQuotient s v| < 1 := by rw [hrQ]; exact truncQ_near _
  have hout := mul_lt_mul_of_pos_left hdescale (outSpan_pos ho)
  have hin := mul_lt_mul_of_pos_right hscale (inSpan_pos hd)
  have hsum := outSpan_mul_error_le hd ho raw r v
  linarith

end

/-- A distance of at most half of two ranges is 0 when the range it is measured in is the larger. -/
theorem eq_zero_of_two_mul_le {ba dc err : ℤ} (hdc : 0 ≤ dc) (herr : 0 ≤ err) (h : 2 * dc * err ≤ dc + ba)
    (hlt : ba < dc) : err = 0 := by
  have hmul : dc * err < dc * 1 := by linarith
  have := lt_of_mul_lt_mul_left hmul hdc
  omega

/-- Settles O27: DESCALE undoes the exact line, so the error is DESCALE's own rounding and SCALE's on the raw side; each
is at most 1/2 with RND, and less than 1 without. -/
theorem scaleThenDescaleIsNear : Obligations.ScaleThenDescaleIsNear := by
  unfold Obligations.ScaleThenDescaleIsNear
  intro s raw r v hs ha hd ho hscale hdescale ba dc err
  have hv := toInt_of_exec_scale hscale
  have hr := toNat_of_exec_descale hdescale
  rw [scaleSpec_of_active hs ha ho] at hv
  rw [descaleSpec_of_active ha ho] at hr
  have hba : inSpan s = (ba : ℚ) := by simp [ba, inSpan]
  have hdc : outSpan s = (dc : ℚ) := by simp [dc, outSpan]
  have herr : |(r.toNat : ℚ) - raw.toNat| = (err : ℚ) := by simp [err]
  refine ⟨fun hF => ?rounded, fun hF => ?truncated⟩
  case rounded =>
    rw [if_pos ((rnd_eq_true_iff hs).mpr hF)] at hv hr
    have hQ := outSpan_mul_error_le_of_rha hd ho hv hr
    rw [hba, hdc, herr] at hQ
    have hbound : 2 * dc * err ≤ dc + ba := by exact_mod_cast hQ
    refine ⟨hbound, fun hfine => ?_⟩
    have hzero := eq_zero_of_two_mul_le (abs_nonneg _) (abs_nonneg _) hbound hfine
    have := abs_eq_zero.mp hzero
    exact BitVec.eq_of_toNat_eq (by omega)
  case truncated =>
    have hrnd : ¬ s.rnd = true := by rw [rnd_eq_true_iff hs, hF]; decide
    rw [if_neg hrnd] at hv hr
    have hQ := outSpan_mul_error_lt_of_trunc hd ho hv hr
    rw [hba, hdc, herr] at hQ
    exact_mod_cast hQ

end Sys2Proof.Machine
end

section
/-! POLL of several frames (R110 to R117): how many it takes, that process-all mode takes them one after another, which slot
a register holds, and what an unknown and a new system change for the frames that follow. -/

namespace Sys2Proof.Machine

variable {s t : State}

/-! ## The two readings of a header (R35, R44) -/

/-- Settles O39: the two decodings read the same two header bytes, and the external one is their big-endian view. -/
theorem headerHasTwoReadings : Obligations.HeaderHasTwoReadings := by
  unfold Obligations.HeaderHasTwoReadings
  intro s bytes f f1 swap swap1 hl
  refine ⟨_, _, byteAt bytes 1, execDec_of_length_eq s f true swap hl, execDec_of_length_eq s f1 false swap1 hl, rfl, rfl,
    ?_, rfl⟩
  exact (frameFades_internal bytes).trans_lt (bytes.getD 0 0#8).isLt

/-! ## What POLL consumes (R110, R111) -/

/-- The offsets of process-all mode are those of the whole frames (R110). -/
theorem selectFrames_procall {n : Nat} (h : 16 ≤ n) :
    selectFrames n true = ((List.range (n / 16)).map (fun j => 16 * j), 16 * (n / 16)) := by
  rw [selectFrames, if_neg (by omega)]
  rfl

/-- Settles O42: POLL's one outcome; the selection of its mode counts the reports and the bytes consumed. -/
theorem pollConsumesWholeFrames : Obligations.PollConsumesWholeFrames := by
  unfold Obligations.PollConsumesWholeFrames
  intro s hl
  have hpoll := execPoll_eq s hl
  have hrx : ∀ offsets, (ingestFrames s.rx offsets s).1.rx = s.rx := fun offsets => by rw [ingestFrames_eq]
  refine ⟨_, _, hpoll, execPoll_frame hpoll, fun hp => ?stale, fun hp => ?all⟩
  case stale =>
    simp [hp, selectFrames_stale _ hl, hrx]
  case all =>
    simp [hp, selectFrames_procall hl, hrx]

/-! ## POLL of RX by its contents -/

/-- Ingesting a frame neither reads nor writes RX. -/
theorem ingestFrame_rx (frame : List Byte) (s : State) (rx : List Byte) :
    ingestFrame frame { s with rx := rx } = ({ (ingestFrame frame s).1 with rx := rx }, (ingestFrame frame s).2) := by
  refine Prod.ext ?_ rfl
  rw [ingestFrame_eq, ingestFrame_eq]
  simp only [State.storeSamples_raw]

/-- The loop neither reads nor writes RX. -/
theorem ingestFrames_rx (bytes : List Byte) (offsets : List Nat) (s : State) (rx : List Byte) :
    ingestFrames bytes offsets { s with rx := rx } =
      ({ (ingestFrames bytes offsets s).1 with rx := rx }, (ingestFrames bytes offsets s).2) := by
  induction offsets generalizing s with
  | nil => rfl
  | cons off offsets ih => rw [ingestFrames_cons, ingestFrames_cons, ingestFrame_rx, ih]

section

variable {frame rest : List Byte} (s : State)

/-- POLL of exactly one frame ingests it (R111). -/
theorem execPoll_rx_one (hl : frame.length = 16) :
    execPoll { s with rx := frame } = .next { (ingestFrame frame s).1 with
      rx := [], response := some ⟨.ok, .reports [(ingestFrame frame s).2]⟩ } := by
  rw [execPoll_one { s with rx := frame } hl, ingestFrame_rx]

/-- POLL in process-all mode ingests the whole frames of RX and keeps the bytes after them (R110, R111). -/
theorem execPoll_rx_all (hp : s.procall = true) (hl : 16 ≤ rest.length) :
    execPoll { s with rx := rest } = .next
      { (ingestFrames rest ((List.range (rest.length / 16)).map (fun j => 16 * j)) s).1 with
        rx := rest.drop (16 * (rest.length / 16))
        response := some ⟨.ok, .reports
          (ingestFrames rest ((List.range (rest.length / 16)).map (fun j => 16 * j)) s).2⟩ } := by
  have hselect : selectFrames rest.length s.procall
      = ((List.range (rest.length / 16)).map (fun j => 16 * j), 16 * (rest.length / 16)) := by
    rw [hp, selectFrames_procall hl]
  rw [execPoll_eq { s with rx := rest } hl]
  simp only [hselect, ingestFrames_rx, State.consume, State.respond]

/-- POLL in process-all mode of a frame with `rest` behind it ingests the frame, then the whole frames of `rest` (R110,
R111). -/
theorem execPoll_rx_append (hp : s.procall = true) (hl : frame.length = 16) (rest : List Byte) :
    execPoll { s with rx := frame ++ rest } = .next
      { (ingestFrames rest ((List.range (rest.length / 16)).map (fun j => 16 * j)) (ingestFrame frame s).1).1 with
        rx := rest.drop (16 * (rest.length / 16))
        response := some ⟨.ok, .reports ((ingestFrame frame s).2 ::
          (ingestFrames rest ((List.range (rest.length / 16)).map (fun j => 16 * j)) (ingestFrame frame s).1).2)⟩ } := by
  rw [execPoll_cons { s with rx := frame ++ rest } frame rest hp rfl hl, ingestFrame_rx, ingestFrames_rx]

/-- POLL in process-all mode of two frames ingests them in order (R110, R111). -/
theorem execPoll_rx_two {next : List Byte} (hp : s.procall = true) (hl : frame.length = 16) (hl1 : next.length = 16) :
    execPoll { s with rx := frame ++ next } = .next
      { (ingestFrame next (ingestFrame frame s).1).1 with
        rx := []
        response := some ⟨.ok, .reports
          [(ingestFrame frame s).2, (ingestFrame next (ingestFrame frame s).1).2]⟩ } := by
  have hread : readBytes next 0 16 = next := by simpa using readBytes_head next [] hl1
  have hoffsets : (List.range (next.length / 16)).map (fun j => 16 * j) = [0] := by rw [hl1]; rfl
  have hdrop : next.drop (16 * (next.length / 16)) = [] := List.drop_of_length_le (by omega)
  rw [execPoll_rx_append s hp hl next, hoffsets, hdrop, ingestFrames_cons, ingestFrames_nil, hread]

end

/-- Settles O43: discard-stale mode ingests the last frame, whatever RX holds before it. -/
theorem discardStaleKeepsTheFreshestFrame : Obligations.DiscardStaleKeepsTheFreshestFrame := by
  unfold Obligations.DiscardStaleKeepsTheFreshestFrame
  intro s stale frame hp hl
  refine ⟨_, execPoll_rx_one s hl, ?_⟩
  exact (execPoll_stale { s with rx := stale ++ frame } stale frame hp rfl hl).trans (by rw [ingestFrame_rx])

/-- Settles O44: with a frame ingested first, the whole frames of the other bytes are ingested as POLL of them alone
would. -/
theorem processAllTakesFramesInOrder : Obligations.ProcessAllTakesFramesInOrder := by
  unfold Obligations.ProcessAllTakesFramesInOrder
  intro s frame rest hp hl
  refine ⟨_, _, execPoll_rx_one s hl, rfl, fun hshort => ?kept, fun hlong => ?polled⟩
  case kept =>
    have hnone : rest.length / 16 = 0 := by omega
    refine (execPoll_rx_append s hp hl rest).trans ?_
    simp [hnone]
  case polled =>
    have hp1 : (ingestFrame frame s).1.procall = true := by rw [ingestFrame_eq]; exact hp
    refine ⟨_, _, execPoll_rx_all _ hp1 hlong, rfl, (execPoll_rx_append s hp hl rest).trans ?_⟩
    simp only [ingestFrames_ports]

/-! ## Which slot a register holds (R113) -/

/-- The two fields of slot `i` as numbers (R53, R54). -/
def slotPair (cfg : Config) (f : Format) (swap : Bool) (frame : List Byte) (i : Nat) : Nat × Nat :=
  (fieldId f (frameSlotNumber cfg swap frame i), fieldVal f (frameSlotNumber cfg swap frame i))

/-- The kept pairs are those of the seven slots that name a channel (R57). -/
theorem framePairs_eq_filter (cfg : Config) (f : Format) (swap : Bool) (frame : List Byte) :
    framePairs cfg f swap frame = ((List.range 7).map (slotPair cfg f swap frame)).filter (fun p => p.1 < 12) := by
  rw [framePairs]
  induction List.range 7 with
  | nil => rfl
  | cons i l ih =>
      rw [List.filterMap_cons, List.map_cons, List.filter_cons, ih]
      by_cases h : fieldId f (frameSlotNumber cfg swap frame i) < 12 <;> simp [slotPair, h]

/-- Pairs that name no channel make no difference to a register. -/
theorem lastNamed_filter (pairs : List (Nat × Nat)) (ch : Channel) (old : Nat) :
    lastNamed (pairs.filter (fun p => p.1 < 12)) ch old = lastNamed pairs ch old := by
  have hch : ∀ p : Nat × Nat, (p.1 == ch.val && decide (p.1 < 12)) = (p.1 == ch.val) := by
    intro p
    by_cases h : p.1 = ch.val <;> simp [h]
  simp only [lastNamed, List.filter_filter, hch]

/-- The last of `n` slots that names a channel gives its register. -/
theorem lastNamed_range_of_last {g : Nat → Nat × Nat} {n i : Nat} {ch : Channel} (old : Nat) (hi : i < n)
    (hnames : (g i).1 = ch.val) (hlast : ∀ j < n, i < j → (g j).1 ≠ ch.val) :
    lastNamed ((List.range n).map g) ch old = (g i).2 := by
  induction n with
  | zero => omega
  | succ n ih =>
      rw [List.range_succ, List.map_append, List.map_singleton, lastNamed_concat]
      rcases Nat.lt_succ_iff_lt_or_eq.mp hi with hlt | rfl
      · rw [if_neg (hlast n (by omega) hlt), ih hlt fun j hj => hlast j (by omega)]
      · rw [if_pos hnames]

/-- A channel that none of `n` slots names keeps its register. -/
theorem lastNamed_range_of_none {g : Nat → Nat × Nat} {n : Nat} {ch : Channel} (old : Nat)
    (hnone : ∀ i < n, (g i).1 ≠ ch.val) : lastNamed ((List.range n).map g) ch old = old := by
  induction n with
  | zero => rfl
  | succ n ih =>
      rw [List.range_succ, List.map_append, List.map_singleton, lastNamed_concat, if_neg (hnone n (by omega)),
        ih fun i hi => hnone i (by omega)]

/-- Settles O46: the register is the last of the seven slots that names it. -/
theorem lastSlotWins : Obligations.LastSlotWins := by
  unfold Obligations.LastSlotWins
  intro s t ch hl h
  have hpoll := execPoll_one s hl
  rw [show execPoll s = .next t from h] at hpoll
  cases hpoll
  have hraw := ingestFrame_raw s.rx s ch
  rw [framePairs_eq_filter, lastNamed_filter] at hraw
  refine ⟨fun i hi hnames hlast => ?_, fun hnone => ?_⟩
  · exact hraw.trans (lastNamed_range_of_last _ hi hnames hlast)
  · exact BitVec.eq_of_toNat_eq (hraw.trans (lastNamed_range_of_none _ hnone))

/-! ## Unknown and new systems (R115 to R117) -/

/-- Settles O47: an unknown system is not adopted, and the loop goes on over the frames of the rest. -/
theorem unknownSystemKeepsTheConfiguration : Obligations.UnknownSystemKeepsTheConfiguration := by
  unfold Obligations.UnknownSystemKeepsTheConfiguration
  intro s frame rest hi hp hl hunknown
  obtain ⟨-, -, hvalid⟩ := ingestFrame_internal_report frame s hi
  obtain ⟨hadopted, hsystem, hformat⟩ := ingestFrame_keeps_system frame s hi (.inr hunknown)
  refine ⟨_, _, execPoll_rx_one s hl, rfl, hvalid.trans hunknown, hadopted, ingestFrame_stored frame s, hsystem, hformat,
    ingestFrame_raw frame s, _, _, execPoll_rx_append s hp hl rest, rfl, ?_⟩
  simp

/-- Settles O48: the first frame is ingested under the Format in force and adopts the next one, under which the second is. -/
theorem adoptedFormatAppliesFromTheNextFrame : Obligations.AdoptedFormatAppliesFromTheNextFrame := by
  unfold Obligations.AdoptedFormatAppliesFromTheNextFrame
  intro s frame next f hi hp hl hl1 hne hf
  have hadoption : adoption s.cfg s.internal s.system (frameSystem s.internal frame) = some (frame.getD 1 0#8, f) := by
    rw [hi]
    exact adoption_of_fmtOf s.cfg hne hf
  obtain ⟨hadopted, -, hformat⟩ := ingestFrame_of_adoption_some frame s hadoption
  have hswap : (ingestFrame frame s).1.swap = s.swap := by rw [ingestFrame_eq]
  refine ⟨_, _, _, execPoll_rx_two s hp hl hl1, rfl, hadopted, rfl, ingestFrame_stored frame s, hformat, ?_⟩
  rw [ingestFrame_stored, ingestFrame_cfg, hformat, hswap]

end Sys2Proof.Machine
end

section
/-! Whole exchanges over the wire: both batches of a block polled by a peer (R94 to R96, R167), and single wire words that
arrive and are polled (R50 to R59). -/

namespace Sys2Proof.Machine

variable {s t : State}

/-! ## A sample cut to its field (R56) -/

/-- The sample with its value cut to the Format's value field. -/
def cutSample (f : Format) (x : Sample) : Sample := ⟨x.id, x.val &&& (valMask f).setWidth 11⟩

theorem cutSample_fits (f : Format) (x : Sample) : (cutSample f x).val.toNat ≤ (valMask f).toNat := by
  rw [cutSample, toNat_and_valMask]
  exact Nat.le_of_lt_succ (Nat.mod_lt _ (Nat.succ_pos _))

/-- Insertion cuts the value, so a cut sample is inserted as the sample is. -/
@[simp] theorem insertSlot_cutSample (f : Format) (x : Sample) : insertSlot f (cutSample f x) = insertSlot f x := by
  apply BitVec.eq_of_toNat_eq
  have hcut := toNat_and_valMask f x.val
  have hlt := x.val.isLt
  rw [insertSlot_toNat, insertSlot_toNat]
  cases f
  · have hmask : (valMask .compact).toNat = 1023 := rfl
    simp only [cutSample, sampleNumber, hcut, hmask]
    omega
  · have hmask : (valMask .extended).toNat = 2047 := rfl
    simp only [cutSample, sampleNumber, hcut, hmask]
    omega

theorem encodeSlot_map_cutSample (samples : List Sample) (f : Format) :
    encodeSlot (samples.map (cutSample f)) f = encodeSlot samples f := by
  funext i
  rw [encodeSlot, encodeSlot, List.getElem?_map]
  cases samples[i]? with
  | none => rfl
  | some x => exact insertSlot_cutSample f x

/-- Decoding an encoded frame gives the samples back, each cut to its field (R56, R96). -/
theorem decodeFrame_encodeFrame_samples (cfg : Config) {samples : List Sample} (fades : Fades) (system : Byte)
    (internal : Bool) (f : Format) (swap : Bool) (hl : samples.length ≤ 7) :
    (decodeFrame cfg (encodeFrame cfg samples fades system internal f swap) f internal swap).samples
      = samples.map (cutSample f) := by
  have hsame : encodeFrame cfg samples fades system internal f swap
      = encodeFrame cfg (samples.map (cutSample f)) fades system internal f swap := by
    rw [encodeFrame, encodeFrame, encodeSlot_map_cutSample]
  have hfits : ∀ x ∈ samples.map (cutSample f), x.val.toNat ≤ (valMask f).toNat := by
    simp only [List.forall_mem_map]
    exact fun x _ => cutSample_fits f x
  rw [hsame, decodeFrame_encodeFrame cfg _ fades system internal f swap (by rwa [List.length_map]) hfits]

/-- Two instances with the same effective byte order decode a frame alike (R36). -/
theorem decodeFrame_of_byteOrder {cfg cfg1 : Config} {swap swap1 : Bool}
    (h : (cfg1.nativeLE != swap1) = (cfg.nativeLE != swap)) (frame : List Byte) (f : Format) (internal : Bool) :
    decodeFrame cfg1 frame f internal swap1 = decodeFrame cfg frame f internal swap := by
  simp only [decodeFrame, frameSlots, slotWord_eq, h]

/-! ## A batch received by a peer -/

/-- `r` can receive what `s` sends: the same Format, header layout, system and effective byte order. -/
structure Peers (r s : State) : Prop where
  format : r.format = s.format
  internal : r.internal = s.internal
  system : r.system = s.system
  byteOrder : (r.cfg.nativeLE != r.swap) = (s.cfg.nativeLE != s.swap)

/-- The frame of a batch under the control fields (R94, R95). -/
def batchFrame (s : State) (channels : List Channel) (fades : Fades) : List Byte :=
  encodeFrame s.cfg (batch s channels) fades s.system s.internal s.format s.swap

@[simp] theorem batchFrame_length (s : State) (channels : List Channel) (fades : Fades) :
    (batchFrame s channels fades).length = 16 := encodeFrame_length ..

/-- The value that channel `ch` has once it is sent: its register cut to the Format's value field. -/
def sentValue (s : State) (ch : Channel) : RawVal := s.raw[ch] &&& (valMask s.format).setWidth 11

/-- Storing one sample of each of some channels sets their registers and no other. -/
theorem getElem_storeSamples_map (g : Channel → RawVal) (channels : List Channel) (s : State) (ch : Channel) :
    (s.storeSamples (channels.map fun c => ⟨c, g c⟩)).raw[ch] = if ch ∈ channels then g ch else s.raw[ch] := by
  induction channels generalizing s with
  | nil => rfl
  | cons c channels ih =>
      refine (ih (s.writeRaw c (g c))).trans ?_
      rw [State.writeRaw_raw, getElem_set_raw]
      by_cases hmem : ch ∈ channels
      · simp [hmem]
      · by_cases hc : c = ch
        · simp [hc]
        · simp [hmem, hc, Ne.symm hc]

section

variable {r : State} (h : Peers r s) (channels : List Channel) (fades : Fades)

include h

/-- A peer's frame announces the system it already has, so nothing is adopted (R115). -/
theorem ingestFrame_batchFrame_system : (ingestFrame (batchFrame s channels fades) r).1.system = r.system
    ∧ (ingestFrame (batchFrame s channels fades) r).1.format = r.format := by
  have hnone : adoption r.cfg r.internal r.system (frameSystem r.internal (batchFrame s channels fades)) = none := by
    rw [h.internal, h.system, batchFrame, frameSystem_encodeFrame]
    cases s.internal
    · exact adoption_external ..
    · exact adoption_eq_none_of_same_or_unknown _ _ (.inl rfl)
  exact (ingestFrame_of_adoption_none _ r hnone).2

/-- The registers of the channels sent are the sender's, cut to the field, and the others are kept (R96, R113). -/
theorem ingestFrame_batchFrame_raw (hl : channels.length ≤ 7) (ch : Channel) :
    (ingestFrame (batchFrame s channels fades) r).1.raw[ch] = if ch ∈ channels then sentValue s ch else r.raw[ch] := by
  have hlength : (batch s channels).length ≤ 7 := by rwa [batch, List.length_map]
  have hbatch : (batch s channels).map (cutSample s.format) = channels.map fun c => ⟨c, sentValue s c⟩ := by
    rw [batch, List.map_map]
    rfl
  have hsamples : (decodeFrame r.cfg (batchFrame s channels fades) r.format r.internal r.swap).samples
      = channels.map fun c => ⟨c, sentValue s c⟩ := by
    rw [h.format, h.internal, decodeFrame_of_byteOrder h.byteOrder, batchFrame,
      decodeFrame_encodeFrame_samples s.cfg fades s.system s.internal s.format s.swap hlength, hbatch]
  rw [ingestFrame_eq]
  simp only [hsamples]
  exact getElem_storeSamples_map (sentValue s) channels r ch

/-- A peer that has received a batch is still a peer. -/
theorem Peers.ingestFrame : Peers (ingestFrame (batchFrame s channels fades) r).1 s := by
  obtain ⟨hsystem, hformat⟩ := ingestFrame_batchFrame_system h channels fades
  have hswap : (Machine.ingestFrame (batchFrame s channels fades) r).1.swap = r.swap := by rw [ingestFrame_eq]
  exact ⟨hformat.trans h.format, (ingestFrame_internal ..).trans h.internal, hsystem.trans h.system,
    by rw [ingestFrame_cfg, hswap]; exact h.byteOrder⟩

end

/-- OUT after a batch is encoded is its frame (R94, R95). -/
theorem readBytes_of_encodeBatch {channels : List Channel} {fades : Fades} (hm : Memory.wf s.out)
    (h : encodeBatch channels fades s = .next t) : Memory.readBytes t.out 0 16 = batchFrame s channels fades := by
  obtain rfl := encodeBatch_next channels fades h
  exact readBytes_writeOut_encodeFrame s.cfg _ fades s.system s.internal s.format s.swap s hm

/-- Every channel is in one of the two batches (R94, R95). -/
theorem mem_auxiliary_or_primary : ∀ ch : Channel, ch ∈ auxiliaryChannels ∨ ch ∈ primaryChannels := by decide

/-- Settles O51: each batch sets the registers of its channels in the peer and keeps the rest, and every channel is in one
of the two. -/
theorem bothBatchesRestoreAPeersRegisters : Obligations.BothBatchesRestoreAPeersRegisters := by
  unfold Obligations.BothBatchesRestoreAPeersRegisters
  intro s s1 s2 r fades fades1 hm h1 h2 hformat hinternal hsystem horder hp
  have hpeers : Peers r s := ⟨hformat, hinternal, hsystem, horder⟩
  have hout1 := readBytes_of_encodeBatch hm h1
  have hm1 : Memory.wf s1.out := by
    obtain rfl := encodeBatch_next primaryChannels fades h1
    exact Memory.wf_writeBytes _ _ _ hm
  have hout2 : Memory.readBytes s2.out 0 16 = batchFrame s auxiliaryChannels fades1 := by
    rw [readBytes_of_encodeBatch hm1 h2]
    obtain rfl := encodeBatch_next primaryChannels fades h1
    rfl
  have hpeers1 := hpeers.ingestFrame primaryChannels fades
  obtain ⟨hsystem1, hformat1⟩ := ingestFrame_batchFrame_system hpeers primaryChannels fades
  obtain ⟨hsystem2, hformat2⟩ := ingestFrame_batchFrame_system hpeers1 auxiliaryChannels fades1
  rw [hout1, hout2]
  refine ⟨_, execPoll_rx_two r hp (batchFrame_length ..) (batchFrame_length ..), rfl, hsystem2.trans hsystem1,
    hformat2.trans hformat1, fun ch => ?_⟩
  refine (ingestFrame_batchFrame_raw hpeers1 auxiliaryChannels fades1 (by decide) ch).trans ?_
  rw [ingestFrame_batchFrame_raw hpeers primaryChannels fades (by decide) ch]
  rcases mem_auxiliary_or_primary ch with hmem | hmem
  · rw [if_pos hmem]
    rfl
  · rw [if_pos hmem, ite_self]
    rfl

/-! ## The arrival of a wire word (log 12) -/

/-- The two bytes of a word on the wire, the high byte first (R36). -/
def wordBytes (w : SlotWord) : List Byte := [hiByte w, loByte w]

theorem receive_nil (s : State) : s.receive [] = s := by
  rw [State.receive, List.append_nil]

theorem receive_receive (s : State) (bytes bytes1 : List Byte) :
    (s.receive bytes).receive bytes1 = s.receive (bytes ++ bytes1) := by
  simp only [State.receive, List.append_assoc]

/-- A word arrives as two bytes that make its number, the high byte first. -/
theorem receiveWord_spec (w : SlotWord) (s : State) : ∃ b0 b1 : Byte,
    receiveWord w s = .next { s with rx := s.rx ++ [b0, b1] } ∧ 256 * b0.toNat + b1.toNat = w.toNat :=
  ⟨hiByte w, loByte w, rfl, by rw [← be16_toNat, be16_hi_lo]⟩

/-- Settles O55: each wire form is the arrival of one word, whose number its fields make. -/
theorem wireWordsArriveHighByteFirst : Obligations.WireWordsArriveHighByteFirst := by
  unfold Obligations.WireWordsArriveHighByteFirst
  intro s
  refine ⟨fun _ _ => rfl, fun fades => receiveWord_spec fades s, fun c v => ?_, fun x c v => ?_, rfl⟩
  · rw [← slotCWord_toNat]
    exact receiveWord_spec (slotCWord c v) s
  · rw [← slotXWord_toNat]
    exact receiveWord_spec (slotXWord x c v) s

/-- Whatever layout a word is read by, running what it decodes to is its arrival. -/
theorem exec_decodeWire (kind : WireKind) (w : SlotWord) (s : State) :
    exec (decodeWire kind w) s = .next (s.receive (wordBytes w)) := by
  cases kind with
  | hdrInt | hdrExt => rfl
  | slotC =>
      rw [decodeWire, decodeSlotC]
      split
      next hfill => rw [hfill]; rfl
      · exact congrArg (receiveWord · s) (slotCWord_fields w)
  | slotX =>
      rw [decodeWire, decodeSlotX]
      split
      next hfill => rw [hfill]; rfl
      · exact congrArg (receiveWord · s) (slotXWord_fields w)

/-- Settles O56: every layout decodes the word, and running it is the arrival of its two bytes. -/
theorem layoutOfAWireWordMakesNoDifference : Obligations.LayoutOfAWireWordMakesNoDifference := by
  unfold Obligations.LayoutOfAWireWordMakesNoDifference
  intro s kind b0 b1 rest hin
  rw [step_of_decode hin rfl, exec_decodeWire, wordBytes, hiByte_be16, loByte_be16]
  rfl

/-! ## Words and their fields -/

/-- The two fields of a slot word as numbers (R53, R54). -/
def wordPair (f : Format) (w : SlotWord) : Nat × Nat := (fieldId f w.toNat, fieldVal f w.toNat)

theorem wordPair_slotCWord (c : BitVec 6) (v : BitVec 10) : wordPair .compact (slotCWord c v) = (c.toNat, v.toNat) := by
  have hv := v.isLt
  simp only [wordPair, fieldId, fieldVal, slotCWord_toNat, Prod.mk.injEq]
  omega

theorem wordPair_slotXWord (x : BitVec 1) (c : BitVec 4) (v : BitVec 11) :
    wordPair .extended (slotXWord x c v) = (c.toNat, v.toNat) := by
  have hc := c.isLt
  have hv := v.isLt
  simp only [wordPair, fieldId, fieldVal, slotXWord_toNat, Prod.mk.injEq]
  omega

/-- A slot instruction is the arrival of one word, whose fields are the stated ones. -/
theorem word_of_slotFields {f : Format} {i : Instr} {p : Nat × Nat} (h : slotFields f i p) :
    ∃ w, (∀ s, exec i s = .next (s.receive (wordBytes w))) ∧ p = wordPair f w := by
  cases f with
  | compact =>
      rcases h with ⟨c, v, rfl, rfl⟩ | ⟨rfl, rfl⟩
      · exact ⟨slotCWord c v, fun _ => rfl, (wordPair_slotCWord c v).symm⟩
      · exact ⟨fillSlot, fun _ => rfl, by decide⟩
  | extended =>
      rcases h with ⟨x, c, v, rfl, rfl⟩ | ⟨rfl, rfl⟩
      · exact ⟨slotXWord x c v, fun _ => rfl, (wordPair_slotXWord x c v).symm⟩
      · exact ⟨fillSlot, fun _ => rfl, by decide⟩

/-- Slot instructions run in order are the arrival of their words in order. -/
theorem words_of_slotFields {f : Format} {slots : List Instr} {fields : List (Nat × Nat)}
    (h : List.Forall₂ (slotFields f) slots fields) :
    ∃ ws : List SlotWord, ws.length = slots.length ∧ fields = ws.map (wordPair f)
      ∧ ∀ s, execAll slots s = .next (s.receive (ws.flatMap wordBytes)) := by
  induction h with
  | nil => exact ⟨[], rfl, rfl, fun s => congrArg Host.Outcome.next (receive_nil s).symm⟩
  | cons hslot _ ih =>
      obtain ⟨w, hexec, rfl⟩ := word_of_slotFields hslot
      obtain ⟨ws, hlength, rfl, hall⟩ := ih
      refine ⟨w :: ws, congrArg (· + 1) hlength, rfl, fun s => ?_⟩
      rw [execAll, hexec]
      exact (hall _).trans (congrArg Host.Outcome.next (receive_receive s _ _))

/-- A header instruction is the arrival of the two bytes that a frame's header fields are read from. -/
theorem bytes_of_headerWord {internal : Bool} {system : Option Byte} {i : Instr} (h : headerWord internal system i) :
    ∃ b0 b1 : Byte, (∀ s, exec i s = .next (s.receive [b0, b1]))
      ∧ ∀ rest, wireFades i = some (frameFades internal (b0 :: b1 :: rest)).toNat
        ∧ frameSystem internal (b0 :: b1 :: rest) = system := by
  cases internal with
  | true =>
      obtain ⟨fades, sys, rfl, rfl⟩ := h
      exact ⟨fades, sys, fun _ => rfl, fun rest => ⟨congrArg some (frameFades_internal (fades :: sys :: rest)).symm, rfl⟩⟩
  | false =>
      obtain ⟨fades, rfl, rfl⟩ := h
      refine ⟨hiByte fades, loByte fades, fun _ => rfl, fun rest => ⟨congrArg some ?_, rfl⟩⟩
      exact congrArg BitVec.toNat (be16_hi_lo fades).symm

/-- The bytes of word `i` among the bytes of a list of words. -/
theorem getD_flatMap_wordBytes {ws : List SlotWord} {i : Nat} (hi : i < ws.length) :
    (ws.flatMap wordBytes).getD (2 * i) 0#8 = hiByte ws[i] ∧ (ws.flatMap wordBytes).getD (2 * i + 1) 0#8 = loByte ws[i] := by
  induction ws generalizing i with
  | nil => cases hi
  | cons w ws ih =>
      cases i with
      | zero => exact ⟨rfl, rfl⟩
      | succ i => exact ih (Nat.lt_of_succ_lt_succ hi)

/-- In the wire-conformant setting the pairs of a frame of words are the words' fields (R37, R53, R54). -/
theorem framePairs_of_words {cfg : Config} {swap : Bool} (hswap : swap = cfg.nativeLE) (f : Format) (b0 b1 : Byte)
    {ws : List SlotWord} (hl : ws.length = 7) :
    framePairs cfg f swap (b0 :: b1 :: ws.flatMap wordBytes) = (ws.map (wordPair f)).filter (fun p => p.1 < 12) := by
  rw [framePairs_eq_filter]
  congr 1
  refine List.ext_getElem (by simp [hl]) fun i hi hi1 => ?_
  have hi7 : i < ws.length := by simpa using hi1
  obtain ⟨hhigh, hlow⟩ := getD_flatMap_wordBytes hi7
  have hnumber : frameSlotNumber cfg swap (b0 :: b1 :: ws.flatMap wordBytes) i = ws[i].toNat := by
    rw [frameSlotNumber, show 2 + 2 * i = 2 * i + 2 by omega, show 3 + 2 * i = 2 * i + 1 + 2 by omega]
    simp only [List.getD_cons_succ]
    rw [hhigh, hlow, hswap, slotNumber_self, ← be16_toNat, be16_hi_lo]
  simp [slotPair, wordPair, hnumber]

theorem length_flatMap_wordBytes (ws : List SlotWord) : (ws.flatMap wordBytes).length = 2 * ws.length := by
  induction ws with
  | nil => rfl
  | cons w ws ih => simp [wordBytes, ih]; omega

/-- Settles O57: the eight words are one frame in RX, whose header and pairs are the words' fields, and POLL ingests it. -/
theorem wordsThenPollReadTheirFields : Obligations.WordsThenPollReadTheirFields := by
  unfold Obligations.WordsThenPollReadTheirFields
  intro s header slots fields system hrx hswap hheader hlength hfields
  obtain ⟨b0, b1, hexec, hread⟩ := bytes_of_headerWord hheader
  obtain ⟨ws, hws, rfl, hall⟩ := words_of_slotFields hfields
  obtain ⟨hfades, hsystem⟩ := hread (ws.flatMap wordBytes)
  have hpairs := framePairs_of_words hswap s.format b0 b1 (hws.trans hlength)
  have hrun : execAll (header :: slots) s = .next { s with rx := b0 :: b1 :: ws.flatMap wordBytes } := by
    rw [execAll, hexec]
    refine (hall _).trans ?_
    rw [receive_receive, State.receive, hrx]
    rfl
  have hl : (b0 :: b1 :: ws.flatMap wordBytes).length = 16 := by
    rw [List.length_cons, List.length_cons, length_flatMap_wordBytes, hws, hlength]
  refine ⟨_, _, _, hrun, execPoll_rx_one s hl, rfl, hfades, hsystem, ?_, fun ch => ?_⟩
  · rw [ingestFrame_stored, hpairs]
  · rw [← hpairs]
    exact ingestFrame_raw _ s ch

end Sys2Proof.Machine
end
